-- ==== Sys2Proof/Word.lean ====
section
/-! DEFINITION. The word types of the block (00_scope.md rules R1, R2). -/

namespace Sys2Proof

/-- `u8`: a frame byte, a tag, a channel, an offset, the 8-bit compare register. -/
abbrev Byte := BitVec 8

/-- `u16`: `RES` and the high-resolution compare registers (R10). -/
abbrev Half := BitVec 16

/-- An IEEE 754 binary32 pattern (R44). -/
abbrev Pattern32 := BitVec 32

/-- The 64-bit command word (R41). -/
abbrev CommandWord := BitVec 64

end Sys2Proof
end

