-- ==== Sys2Proof/Syntax.lean ====
section
/-! DEFINITION. The ten commands of 30_encoding.md rule R47, with their operands as R44 to R46 give them. -/

namespace Sys2Proof

/-- One constructor per row of the opcode table. -/
inductive Instr where
  /-- NOP (R90). -/
  | nop
  /-- ENCODE `tool, tool_id, function, value` (R56); `value` is the signed integer of R45. -/
  | encode (tool toolId function : Byte) (value : Int)
  /-- DECODE_VALUE (R58). -/
  | decodeValue
  /-- READ_CMD `off` (R60). -/
  | readCmd (off : Byte)
  /-- RESP_WRITE `off, byte` (R61). -/
  | respWrite (off data : Byte)
  /-- RESP_READ `off` (R62). -/
  | respRead (off : Byte)
  /-- PING_CHECK (R63). -/
  | pingCheck
  /-- SET_ANGLE `ch, angle` (R72); the angle is its binary32 pattern (R44). -/
  | setAngle (ch : Byte) (angle : Pattern32)
  /-- READ_DUTY `ch` (R79). -/
  | readDuty (ch : Byte)
  /-- READ_TOP (R80). -/
  | readTop
deriving DecidableEq, Repr

/-- The five formats of R43. -/
inductive Format where
  | f0 | fa | fad | fang | fenc
deriving DecidableEq, Repr

end Sys2Proof
end

