-- ==== Sys2Proof/WellFormed.lean ====
section
/-! DEFINITION. Which terms of `Instr` are commands of the block. Every byte operand is legal (R46, R50, R57); only the
value of ENCODE has a range. -/

namespace Sys2Proof

/-- `v` is in the range of `s16` (R2). -/
def inS16 (v : Int) : Bool := decide (-32768 ≤ v) && decide (v ≤ 32767)

/-- The value operand of ENCODE is a signed 16-bit integer (R45); no other operand has an ill-formed value. -/
def Instr.wellFormed : Instr → Bool
  | .encode _ _ _ value => inS16 value
  | .nop | .decodeValue | .readCmd _ | .respWrite _ _ | .respRead _ | .pingCheck | .setAngle _ _ | .readDuty _ | .readTop => true

end Sys2Proof
end

