-- ==== Sys2Proof/Decode.lean ====
section
/-! DEFINITION. Decoding and encoding of the 64-bit command word (30_encoding.md). -/

namespace Sys2Proof

/-- `w[lo+n-1:lo]` (R1). -/
def field (w : CommandWord) (lo n : Nat) : BitVec n := w.extractLsb' lo n

/-- `OP = w[63:56]` (R42). -/
def fieldOp (w : CommandWord) : Byte := field w 56 8

/-- `A = w[55:48]` (R42). -/
def fieldA (w : CommandWord) : Byte := field w 48 8

/-- `B = w[47:40]` (R42). -/
def fieldB (w : CommandWord) : Byte := field w 40 8

/-- `C = w[39:32]` (R42). -/
def fieldC (w : CommandWord) : Byte := field w 32 8

/-- `IMM32 = w[31:0]` (R42). -/
def fieldImm32 (w : CommandWord) : Pattern32 := field w 0 32

/-- `IMM16 = w[15:0]` (R42). -/
def fieldImm16 (w : CommandWord) : Half := field w 0 16

/-- `D8 = w[7:0]` (R42). -/
def fieldD8 (w : CommandWord) : Byte := field w 0 8

/-- `bits_16(x) = x mod 2^16` (R2). -/
def bits16 (x : Int) : Half := BitVec.ofInt 16 x

/-- `sval_16(p)`: the two's complement value (R2). -/
def sval16 (p : Half) : Int := p.toInt

/-- What a word decodes to (R54). -/
inductive Decoded where
  /-- A row of R47 with its operands. -/
  | command (i : Instr)
  /-- An opcode outside R47 (R49), rejected by name. -/
  | reservedOpcode (op : Byte)
deriving DecidableEq, Repr

/-- The opcode map (R47): `OP` alone selects the command; the bits the format does not use are not read (R48). -/
def decode (w : CommandWord) : Decoded :=
  match fieldOp w with
  | 0x00#8 => .command .nop
  | 0x01#8 => .command (.encode (fieldA w) (fieldB w) (fieldC w) (sval16 (fieldImm16 w)))
  | 0x02#8 => .command .decodeValue
  | 0x03#8 => .command (.readCmd (fieldA w))
  | 0x04#8 => .command (.respWrite (fieldA w) (fieldD8 w))
  | 0x05#8 => .command (.respRead (fieldA w))
  | 0x06#8 => .command .pingCheck
  | 0x10#8 => .command (.setAngle (fieldA w) (fieldImm32 w))
  | 0x11#8 => .command (.readDuty (fieldA w))
  | 0x12#8 => .command .readTop
  | op => .reservedOpcode op

/-- The opcode of a command (R47). -/
def opcodeOf : Instr → Byte
  | .nop => 0x00#8
  | .encode .. => 0x01#8
  | .decodeValue => 0x02#8
  | .readCmd _ => 0x03#8
  | .respWrite .. => 0x04#8
  | .respRead _ => 0x05#8
  | .pingCheck => 0x06#8
  | .setAngle .. => 0x10#8
  | .readDuty _ => 0x11#8
  | .readTop => 0x12#8

/-- The format of a command (R47). -/
def formatOf : Instr → Format
  | .nop | .decodeValue | .pingCheck | .readTop => .f0
  | .readCmd _ | .respRead _ | .readDuty _ => .fa
  | .respWrite .. => .fad
  | .setAngle .. => .fang
  | .encode .. => .fenc

/-- The bits a format uses (R43); the rest are ignored (R48). -/
def usedMask : Format → CommandWord
  | .f0 => 0xFF00000000000000#64
  | .fa => 0xFFFF000000000000#64
  | .fad => 0xFFFF0000000000FF#64
  | .fang => 0xFFFF0000FFFFFFFF#64
  | .fenc => 0xFFFFFFFF0000FFFF#64

/-- `v << lo` in the command word (R52). -/
def place {n : Nat} (v : BitVec n) (lo : Nat) : CommandWord := v.setWidth 64 <<< lo

/-- The operand bits of a command, each field at its place (R42); ignored bits are zero (R52). -/
def operandBits : Instr → CommandWord
  | .nop | .decodeValue | .pingCheck | .readTop => 0#64
  | .readCmd a | .respRead a | .readDuty a => place a 48
  | .respWrite off data => place off 48 ||| place data 0
  | .setAngle ch angle => place ch 48 ||| place angle 0
  | .encode tool toolId function value => place tool 48 ||| place toolId 40 ||| place function 32 ||| place (bits16 value) 0

/-- The word of a command (R52). -/
def encode (i : Instr) : CommandWord := place (opcodeOf i) 56 ||| operandBits i

/-- The command word whose `nbits` low bits, numbered as spec/opcode_table.json numbers them, are those of `w`, the rest zero. A
word is handed to the block whole (R41), so no byte order enters. -/
def tableWord (nbits w : Nat) : CommandWord := BitVec.ofNat 64 (w % 2 ^ nbits)

/-- What the decoder reads from a word of the opcode table. -/
def decodeTableWord (nbits w : Nat) : Option Instr :=
  match decode (tableWord nbits w) with
  | .command i => some i
  | .reservedOpcode _ => none

end Sys2Proof
end

