-- ==== Sys2Proof/Config.lean ====
section
/-! DEFINITION. What is fixed before reset (00_scope.md section 4, 10_state.md rules R16, R17, 41_pwm_mapper.md rule R70),
the named constants of the spec, and the free values. -/

namespace Sys2Proof

/-- `HR_MAP` (R17): which high-resolution mapping SET_ANGLE uses. -/
inductive HrMap where
  /-- R74, the default. -/
  | normalized
  /-- R75, the source's formula as written. -/
  | literal
deriving DecidableEq, Repr

/-- The model arguments: the three inputs of `TIMER_TOP` (R70), `HR_MAP` and `PING_MARKER` (R17). -/
structure Config where
  /-- `CLOCK_HZ`. -/
  clockHz : Nat
  /-- `PRESCALER`. -/
  prescaler : Nat
  /-- `PWM_FREQ_HZ`. -/
  pwmFreqHz : Nat
  /-- `HR_MAP`. -/
  hrMap : HrMap
  /-- `PING_MARKER`. -/
  pingMarker : Byte
deriving DecidableEq, Repr

/-- The configuration `State.reset` is given: the inputs R70 prints for the source's worked `timer_top = 20000`, the default
`HR_MAP`, and the marker 95_test_vectors.md uses. DESIGN CHOICE, unsafe for a claim about `State.reset` alone (log entry 4): the
spec leaves these to the model's user, and no statement rests on them. -/
def Config.illustrative : Config :=
  { clockHz := 160000000, prescaler := 160, pwmFreqHz := 50, hrMap := .normalized, pingMarker := 0x50#8 }

/-- `draw_8()` of R24: the n-th free byte. DESIGN CHOICE of form, safe (log entry 6): nothing constrains it. -/
opaque Config.freeByte : Nat → Byte

/-- `draw_16()` of R75: the n-th free 16-bit value. DESIGN CHOICE of form, safe (log entry 7): nothing constrains it. -/
opaque Config.freeHalf : Nat → Half

/-- `FRAME_CAPACITY`: both buffers have eight bytes (R22). -/
def frameCapacity : Nat := 8

/-- `TAG_SERVO` (R65). No command reads a tag (R57). -/
def Config.tagServo : Byte := 0x41#8

/-- `TAG_MOSFET` (R65). -/
def Config.tagMosfet : Byte := 0x4D#8

/-- `TAG_RELAY` (R65). -/
def Config.tagRelay : Byte := 0x52#8

/-- `TAG_PING`: no value in the spec (R65), read by no command; safe (log entry 10). -/
opaque Config.tagPing : Byte

/-- `FN_ANGLE`: as `TAG_PING`. -/
opaque Config.fnAngle : Byte

/-- `FN_SPEED`: as `TAG_PING`. -/
opaque Config.fnSpeed : Byte

/-- `FN_STATUS`: as `TAG_PING`. -/
opaque Config.fnStatus : Byte

/-- `FN_PING`: as `TAG_PING`. -/
opaque Config.fnPing : Byte

/-- The two values `FRAME_TX_LEN` may have (00_scope.md section 4). -/
inductive FrameTxLen where
  | five | eight
deriving DecidableEq, Repr, Inhabited

/-- `FRAME_TX_LEN`: open, and of the transport, which is out of scope; safe (log entry 10). -/
opaque Config.frameTxLen : FrameTxLen

end Sys2Proof
end

