-- ==== Sys2Proof/Machine/Numeric.lean ====
section
/-! DEFINITION. The rounding functions of 00_scope.md rule R3 on an exact quotient `n / d` (R2), the timer top value (R70) and
the legality of a configuration (R71). -/

namespace Sys2Proof.Machine

/-- `floor(n / d)` for `d > 0` (R3). -/
def floorDiv (n : Int) (d : Nat) : Int := n / (d : Int)

/-- `trunc(n / d)`: toward zero (R3). -/
def truncDiv (n : Int) (d : Nat) : Int :=
  if 0 ≤ n then floorDiv n d else -floorDiv (-n) d

/-- `round(n / d)`: nearest, ties away from zero (R3); `floor(q + 1/2)` is `floor((2n + d) / 2d)`. -/
def roundDiv (n : Int) (d : Nat) : Int :=
  if 0 ≤ n then floorDiv (2 * n + d) (2 * d) else -floorDiv (-(2 * n) + d) (2 * d)

/-- `TIMER_TOP = round(CLOCK_HZ / (PRESCALER * PWM_FREQ_HZ))` (R70). -/
def timerTop (c : Config) : Nat := (roundDiv c.clockHz (c.prescaler * c.pwmFreqHz)).toNat

/-- A configuration is legal only with positive inputs and `1 ≤ TIMER_TOP ≤ 65535` (R71). -/
def legalConfig (c : Config) : Bool :=
  decide (0 < c.clockHz) && decide (0 < c.prescaler) && decide (0 < c.pwmFreqHz) &&
    decide (1 ≤ timerTop c) && decide (timerTop c ≤ 65535)

/-- `TIMER_TOP` as the u16 it is under every legal configuration (R16). Under an illegal one no command runs (R71). -/
def timerTopHalf (c : Config) : Half := BitVec.ofNat 16 (timerTop c)

end Sys2Proof.Machine
end

