-- ==== Sys2Proof/Machine/Operands.lean ====
section
/-! DEFINITION. The operand forms: the exact value of a binary32 angle (R44), the valid angles (R72), the channel numbers (R46,
R72, R79) and zero extension (R2). -/

namespace Sys2Proof.Machine

/-- `zext_16` of a byte (R2). -/
def zext16 (b : Byte) : Half := b.setWidth 16

/-- The exact value of a binary32 pattern (R44). Every finite one is a whole multiple of `2^-149`, the weight of the last bit of
a subnormal, so `finite k` stands for `k * 2^-149`. DEDUCED, safe (log entry 9). -/
inductive F32Val where
  | nan
  | posInf
  | negInf
  | finite (k : Int)
deriving DecidableEq, Repr

/-- `2^149`: how many of `F32Val.finite`'s units make one degree. -/
def unitsPerDegree : Nat := 2 ^ 149

/-- `s = p[31]` (R44). -/
def f32Sign (p : Pattern32) : Bool := p.getLsbD 31

/-- `e = p[30:23]` (R44). -/
def f32Exp (p : Pattern32) : Nat := (p.extractLsb' 23 8).toNat

/-- `m = p[22:0]` (R44). -/
def f32Frac (p : Pattern32) : Nat := (p.extractLsb' 0 23).toNat

/-- The magnitude of a finite pattern in units of `2^-149`: `m` when `e = 0`, else `(2^23 + m) * 2^(e-150) = (2^23 + m) *
2^(e-1)` units (R44). -/
def f32Units (p : Pattern32) : Nat :=
  if f32Exp p = 0 then f32Frac p else (2 ^ 23 + f32Frac p) * 2 ^ (f32Exp p - 1)

/-- `f32val(p)` (R44). -/
def f32val (p : Pattern32) : F32Val :=
  if f32Exp p = 255 then
    if f32Frac p ≠ 0 then .nan else if f32Sign p then .negInf else .posInf
  else .finite (if f32Sign p then -(f32Units p : Int) else f32Units p)

/-- The angle in units of `2^-149` degrees if it is valid, that is finite and in `[0, 180]` (R72); none where SET_ANGLE ignores
it. -/
def validAngle (p : Pattern32) : Option Int :=
  match f32val p with
  | .finite k => if 0 ≤ k ∧ k ≤ 180 * (unitsPerDegree : Int) then some k else none
  | .nan => none
  | .posInf => none
  | .negInf => none

/-- The high-resolution channels 0, 1, 2 (R14). -/
inductive HrChannel where
  | ch0 | ch1 | ch2
deriving DecidableEq, Repr

/-- What a channel operand names (R72, R79). -/
inductive Channel where
  /-- Channels 0, 1, 2. -/
  | hr (c : HrChannel)
  /-- Channel 3. -/
  | eightBit
  /-- `ch ∈ 4 .. 255`: a legal operand that names no channel (R50). -/
  | absent
deriving DecidableEq, Repr

/-- The channel of the operand byte (R46, R72). -/
def channelOf (ch : Byte) : Channel :=
  match ch with
  | 0#8 => .hr .ch0
  | 1#8 => .hr .ch1
  | 2#8 => .hr .ch2
  | 3#8 => .eightBit
  | _ => .absent

end Sys2Proof.Machine
end

