-- ==== Sys2Proof/Machine/State.lean ====
section
/-! DEFINITION. The state of the block (10_state.md rule R10), the model arguments it runs under, the host's inputs still to
come, and the reset state (R20). -/

namespace Sys2Proof.Machine

/-- A frame buffer: its bytes that differ from `Memory.unlisted`, by strictly rising offset (log entry 8). -/
abbrev Memory := List Host.Cell

/-- What a byte that is not listed reads as: 0x00, the value of every buffer byte after reset (R20). -/
def Memory.unlisted : Byte := 0x00#8

/-- Strictly rising addresses, all above `lo` where one is given. -/
def Memory.risingFrom : Option Nat → Memory → Bool
  | _, [] => true
  | none, (a, _) :: rest => Memory.risingFrom (some a) rest
  | some lo, (a, _) :: rest => decide (lo < a) && Memory.risingFrom (some a) rest

/-- The canonical form: offsets strictly rising and below eight (R22), no entry equal to what an unlisted byte reads as. -/
def Memory.wf (m : Memory) : Bool :=
  Memory.risingFrom none m && m.all (fun c => decide (c.1 < frameCapacity) && decide (c.2 ≠ Memory.unlisted))

/-- What the outside can do to the block between two commands (R5, R120). -/
inductive HostInput where
  /-- The host issues a command word (R41). -/
  | command (w : CommandWord)
  /-- Reset is applied (R120); there is no reset command. DESIGN CHOICE, unsafe only for a claim that a reset cannot
  land inside a command (log entry 3). -/
  | reset
deriving DecidableEq, Repr

/-- The state. The first seven fields are exactly the state R10 names; `cfg` is the model's arguments; `pending` and `draws`
are the model's own. -/
structure State where
  /-- `RES` (R11). -/
  res : Half
  /-- `CMD[0..7]` (R12). -/
  cmd : Memory
  /-- `RSP[0..7]` (R13). -/
  rsp : Memory
  /-- `CMP[0]` (R14). -/
  cmp0 : Half
  /-- `CMP[1]` (R14). -/
  cmp1 : Half
  /-- `CMP[2]` (R14). -/
  cmp2 : Half
  /-- `CMP[3]` (R14). -/
  cmp3 : Byte
  /-- The model arguments (R16, R17, R70); no step writes them. -/
  cfg : Config
  /-- The inputs the host has still to give, the next first (R18: the host keeps the position). DESIGN CHOICE, safe (log
  entry 1). -/
  pending : List HostInput
  /-- How many free values have been taken (log entry 6). -/
  draws : Nat
deriving DecidableEq, Repr

/-- Why the block could stop: no reason exists, since no command raises an exception, trap or fault (R100). -/
inductive Fault where
deriving DecidableEq, Repr

/-- Why the model gives no meaning. -/
inductive Refusal where
  /-- Raised by an arm of `exec` whose instruction has no meaning yet. Safe. No arm raises it in this model. -/
  | notModelled (mnemonic : String)
  /-- Raised by `step` for a command word whose opcode R47 does not list (R49). Safe: the model stops. -/
  | reservedOpcode (op : Byte)
  /-- Raised by `State.instantiate` and by `step` under a configuration R71 calls illegal. Safe: no command runs. -/
  | illegalConfiguration
deriving DecidableEq, Repr

/-- The state right after reset under the configuration `c` (R20, R121): every register and byte zero. Nothing is pending and
no free value has been taken (DESIGN CHOICE, log entries 1 and 6). -/
def State.resetWith (c : Config) : State :=
  { res := 0x0000#16, cmd := [], rsp := [], cmp0 := 0x0000#16, cmp1 := 0x0000#16, cmp2 := 0x0000#16, cmp3 := 0x00#8,
    cfg := c, pending := [], draws := 0 }

/-- The state right after reset, under the illustrative configuration (log entry 4). -/
def State.reset : State := State.resetWith Config.illustrative

end Sys2Proof.Machine
end

