-- ==== Sys2Proof/Machine/Ops.lean ====
section
/-! DEFINITION. The named operations over the buffers and registers (00_scope.md rule R4, 20_memory.md rules R22 to R31),
instantiation (R71) and reset (R120). -/

namespace Sys2Proof.Machine

/-- The byte of a buffer at address `k`. -/
def Memory.read : Memory → Nat → Byte
  | [], _ => Memory.unlisted
  | (a, b) :: rest, k => if a = k then b else Memory.read rest k

/-- The canonical buffer whose byte at each offset `a < 8` is `f a`. -/
def Memory.ofBytes (f : Nat → Byte) : Memory :=
  (List.range frameCapacity).filterMap (fun a => if f a = Memory.unlisted then none else some (a, f a))

/-- One byte written, the other seven as they were (R25). -/
def Memory.write (m : Memory) (k : Nat) (v : Byte) : Memory :=
  Memory.ofBytes (fun a => if a = k then v else Memory.read m a)

/-- `RES <- v` (R4). -/
def State.setRes (s : State) (v : Half) : State := { s with res := v }

/-- The command frame replaced whole (R56). -/
def State.setCmd (s : State) (m : Memory) : State := { s with cmd := m }

/-- The response frame replaced. -/
def State.setRsp (s : State) (m : Memory) : State := { s with rsp := m }

/-- `CMP[ch]` of a high-resolution channel (R14). -/
def State.hrCmp (s : State) : HrChannel → Half
  | .ch0 => s.cmp0
  | .ch1 => s.cmp1
  | .ch2 => s.cmp2

/-- `CMP[ch] <- v`, both bytes in one step (R30). -/
def State.setHrCmp (s : State) (c : HrChannel) (v : Half) : State :=
  match c with
  | .ch0 => { s with cmp0 := v }
  | .ch1 => { s with cmp1 := v }
  | .ch2 => { s with cmp2 := v }

/-- `CMP[3] <- v` (R14). -/
def State.setCmp3 (s : State) (v : Byte) : State := { s with cmp3 := v }

/-- One more free value has been taken. -/
def State.nextDraw (s : State) : State := { s with draws := s.draws + 1 }

/-- The host's inputs still to come. -/
def State.setPending (s : State) (q : List HostInput) : State := { s with pending := q }

/-- The two address spaces (R22). -/
inductive Buffer where
  | cmd | rsp
deriving DecidableEq, Repr

/-- The content of an address space. -/
def State.buffer (s : State) : Buffer → Memory
  | .cmd => s.cmd
  | .rsp => s.rsp

/-- `MemRead(S, a, 1)`: the byte where `a < 8` (R23), else a free byte, fresh each time (R24). -/
def memRead (b : Buffer) (a : Nat) (s : State) : Byte × State :=
  if a < frameCapacity then (Memory.read (s.buffer b) a, s) else (Config.freeByte s.draws, s.nextDraw)

/-- `RES <- zext_16(MemRead(S, a, 1))`: READ_CMD and RESP_READ (R60, R62). -/
def readToRes (b : Buffer) (a : Nat) (s : State) : State :=
  (memRead b a s).2.setRes (zext16 (memRead b a s).1)

/-- `MemWrite(RSP, a, 1, v)`: one byte where `a < 8` (R25), else nothing (R26). -/
def memWriteRsp (a : Nat) (v : Byte) (s : State) : State :=
  if a < frameCapacity then s.setRsp (Memory.write s.rsp a v) else s

/-- The reset that the outside applies (R120): the state of R20 under the same configuration (R121). The inputs still to come
and the count of free values are not of the block and stay (log entry 3). -/
def State.applyReset (s : State) : State :=
  { State.resetWith s.cfg with pending := s.pending, draws := s.draws }

/-- The block is instantiated under a configuration: refused if it is illegal (R71), else the reset state (R124). -/
def State.instantiate (c : Config) : Host.Outcome State Fault Refusal :=
  if legalConfig c then .next (State.resetWith c) else .refused .illegalConfiguration

end Sys2Proof.Machine
end

