-- ==== Sys2Proof/Machine/Codec.lean ====
section
/-! DEFINITION. The frame codec commands (40_frame_codec.md). -/

namespace Sys2Proof.Machine

/-- The command frame of R55: five fields, the value big-endian (R29), and three zero bytes. -/
def commandFrame (tool toolId function : Byte) (v : Half) (off : Nat) : Byte :=
  match off with
  | 0 => tool
  | 1 => toolId
  | 2 => function
  | 3 => v.extractLsb' 8 8
  | 4 => v.extractLsb' 0 8
  | _ => 0x00#8

/-- ENCODE: all eight bytes of `CMD` in one step (R56); nothing is validated (R57). -/
def execEncode (tool toolId function : Byte) (value : Int) (s : State) : Host.Outcome State Fault Refusal :=
  .next (s.setCmd (Memory.ofBytes (commandFrame tool toolId function (bits16 value))))

/-- DECODE_VALUE: `RES <- CMD[3] ++ CMD[4]` (R58). -/
def execDecodeValue (s : State) : Host.Outcome State Fault Refusal :=
  .next (s.setRes ((memRead .cmd 3 s).1 ++ (memRead .cmd 4 s).1))

/-- READ_CMD (R60). -/
def execReadCmd (off : Byte) (s : State) : Host.Outcome State Fault Refusal :=
  .next (readToRes .cmd off.toNat s)

/-- RESP_WRITE (R61). -/
def execRespWrite (off data : Byte) (s : State) : Host.Outcome State Fault Refusal :=
  .next (memWriteRsp off.toNat data s)

/-- RESP_READ (R62). -/
def execRespRead (off : Byte) (s : State) : Host.Outcome State Fault Refusal :=
  .next (readToRes .rsp off.toNat s)

/-- PING_CHECK: 1 exactly when `RSP[0]` is `PING_MARKER` (R63). -/
def execPingCheck (s : State) : Host.Outcome State Fault Refusal :=
  .next (s.setRes (if (memRead .rsp 0 s).1 = s.cfg.pingMarker then 0x0001#16 else 0x0000#16))

end Sys2Proof.Machine
end

