-- ==== Sys2Proof/Machine/Housekeeping.lean ====
section
/-! DEFINITION. 42_housekeeping.md. -/

namespace Sys2Proof.Machine

/-- NOP: no state change (R90). -/
def execNop (s : State) : Host.Outcome State Fault Refusal := .next s

end Sys2Proof.Machine
end

