-- ==== Sys2Proof/Machine/Mapper.lean ====
section
/-! DEFINITION. The servo PWM mapper commands (41_pwm_mapper.md). An angle is `k` units of `2^-149` degrees. -/

namespace Sys2Proof.Machine

/-- `raw = trunc(65535 * a / 180 - 32768)` (R73), over the common denominator `180 * 2^149`. -/
def hrRaw (k : Int) : Int :=
  truncDiv (65535 * k - 32768 * (180 * (unitsPerDegree : Int))) (180 * unitsPerDegree)

/-- `duty = round(TIMER_TOP * u / 65535)` with `u = raw + 32768` (R74). -/
def normalizedDuty (top : Nat) (k : Int) : Int := roundDiv ((top : Int) * (hrRaw k + 32768)) 65535

/-- `d = round((TIMER_TOP / 255) * raw)` (R75). -/
def literalDuty (top : Nat) (k : Int) : Int := roundDiv ((top : Int) * hrRaw k) 255

/-- `duty8(a) = floor(255 * a / 180)` (R77). -/
def duty8 (k : Int) : Int := floorDiv (255 * k) (180 * unitsPerDegree)

/-- `hr_duty(a)` by `HR_MAP` (R74, R75), and the state after it: a LITERAL result outside 16 bits is a free value. -/
def hrDuty (k : Int) (s : State) : Half × State :=
  match s.cfg.hrMap with
  | .normalized => (bits16 (normalizedDuty (timerTop s.cfg) k), s)
  | .literal =>
    if 0 ≤ literalDuty (timerTop s.cfg) k ∧ literalDuty (timerTop s.cfg) k ≤ 65535 then
      (bits16 (literalDuty (timerTop s.cfg) k), s)
    else (Config.freeHalf s.draws, s.nextDraw)

/-- SET_ANGLE for a valid angle (R72, R78): the named channel's compare register alone. -/
def setChannel (c : Channel) (k : Int) (s : State) : State :=
  match c with
  | .hr h => (hrDuty k s).2.setHrCmp h (hrDuty k s).1
  | .eightBit => s.setCmp3 (BitVec.ofInt 8 (duty8 k))
  | .absent => s

/-- SET_ANGLE: an invalid angle is ignored, never clamped (R72). -/
def execSetAngle (ch : Byte) (angle : Pattern32) (s : State) : Host.Outcome State Fault Refusal :=
  match validAngle angle with
  | none => .next s
  | some k => .next (setChannel (channelOf ch) k s)

/-- What READ_DUTY reads: the channel's register, zero for an absent channel (R79). -/
def dutyOf (c : Channel) (s : State) : Half :=
  match c with
  | .hr h => s.hrCmp h
  | .eightBit => zext16 s.cmp3
  | .absent => 0x0000#16

/-- READ_DUTY (R79). -/
def execReadDuty (ch : Byte) (s : State) : Host.Outcome State Fault Refusal :=
  .next (s.setRes (dutyOf (channelOf ch) s))

/-- READ_TOP: `RES <- TIMER_TOP` (R80). -/
def execReadTop (s : State) : Host.Outcome State Fault Refusal :=
  .next (s.setRes (timerTopHalf s.cfg))

end Sys2Proof.Machine
end

