-- ==== Sys2Proof/Machine/Dispatch.lean ====
section
/-! DEFINITION. One arm per command of 30_encoding.md rule R47. -/

namespace Sys2Proof.Machine

def exec (i : Instr) (s : State) : Host.Outcome State Fault Refusal :=
  match i with
  | .nop => Sys2Proof.Machine.execNop s
  | .encode tool toolId function value => Sys2Proof.Machine.execEncode tool toolId function value s
  | .decodeValue => Sys2Proof.Machine.execDecodeValue s
  | .readCmd off => Sys2Proof.Machine.execReadCmd off s
  | .respWrite off data => Sys2Proof.Machine.execRespWrite off data s
  | .respRead off => Sys2Proof.Machine.execRespRead off s
  | .pingCheck => Sys2Proof.Machine.execPingCheck s
  | .setAngle ch angle => Sys2Proof.Machine.execSetAngle ch angle s
  | .readDuty ch => Sys2Proof.Machine.execReadDuty ch s
  | .readTop => Sys2Proof.Machine.execReadTop s

end Sys2Proof.Machine
end

