-- ==== Sys2Proof/Machine/Fetch.lean ====
section
/-! DEFINITION. Taking the host's next input (00_scope.md rule R5) and what it does. -/

namespace Sys2Proof.Machine

/-- A command word is decoded, a reserved opcode recognised before any operand is read (R104), and run (R5). -/
def runWord (w : CommandWord) (s : State) : Host.Outcome State Fault Refusal :=
  match decode w with
  | .command i => exec i s
  | .reservedOpcode op => .refused (.reservedOpcode op)

/-- One input of the host. -/
def runInput (input : HostInput) (s : State) : Host.Outcome State Fault Refusal :=
  match input with
  | .command w => runWord w s
  | .reset => .next s.applyReset

/-- The next input is taken off the stream and carried out; where the host gives none, nothing changes (DESIGN CHOICE, safe,
log entry 2). -/
def runNextInput (s : State) : Host.Outcome State Fault Refusal :=
  match s.pending with
  | [] => .next s
  | input :: rest => runInput input (s.setPending rest)

/-- Under an illegal configuration no command runs (R71). -/
def runIfLegal (s : State) : Host.Outcome State Fault Refusal :=
  if legalConfig s.cfg then runNextInput s else .refused .illegalConfiguration

/-- The host's next command is the word whose bits are given (log entry 1). -/
def issueTableWord (s : State) (nbits w : Nat) : State :=
  s.setPending (.command (tableWord nbits w) :: s.pending)

end Sys2Proof.Machine
end

