-- ==== Sys2Proof/Machine/Program.lean ====
section
/-! DEFINITION. Commands in the order the host issues them (20_memory.md rule R36) and the pseudo-commands of 30_encoding.md rule
R53. -/

namespace Sys2Proof.Machine

/-- The commands of a list, one after the other, each on the state the one before it left (R36); a fault or refusal ends it. -/
def execSeq : List Instr → State → Host.Outcome State Fault Refusal
  | [], s => .next s
  | i :: rest, s =>
    match exec i s with
    | .next t => execSeq rest t
    | .fault r => .fault r
    | .refused r => .refused r

/-- The pseudo-commands (R53). There is no ENC.PING: the tag has no value in the spec. -/
inductive Pseudo where
  | encServo (toolId function : Byte) (value : Int)
  | encMosfet (toolId function : Byte) (value : Int)
  | encRelay (toolId function : Byte) (value : Int)
  | rspLoad (b0 b1 b2 b3 b4 b5 b6 b7 : Byte)
deriving DecidableEq, Repr

/-- What a pseudo-command expands to (R53). -/
def expand : Pseudo → List Instr
  | .encServo toolId function value => [.encode Config.tagServo toolId function value]
  | .encMosfet toolId function value => [.encode Config.tagMosfet toolId function value]
  | .encRelay toolId function value => [.encode Config.tagRelay toolId function value]
  | .rspLoad b0 b1 b2 b3 b4 b5 b6 b7 =>
    [.respWrite 0#8 b0, .respWrite 1#8 b1, .respWrite 2#8 b2, .respWrite 3#8 b3,
     .respWrite 4#8 b4, .respWrite 5#8 b5, .respWrite 6#8 b6, .respWrite 7#8 b7]

end Sys2Proof.Machine
end

