-- ==== Sys2Proof/Safety.lean ====
section
/-! DEFINITION. The terms the claims use: the invariant of the block, the rounding functions and the binary32 value over the
rationals as 00_scope.md rules R2, R3 and 30_encoding.md rule R44 write them, and the access matrix of 10_state.md rule R21. -/

namespace Sys2Proof.Safety

open Sys2Proof.Machine

/-! ### The invariant -/

/-- Under NORMALIZED the compare registers hold values in `0 .. TIMER_TOP` (R14, R76). -/
def dutiesWithinTop (s : State) : Prop :=
  s.cfg.hrMap = .normalized →
    s.cmp0.toNat ≤ timerTop s.cfg ∧ s.cmp1.toNat ≤ timerTop s.cfg ∧ s.cmp2.toNat ≤ timerTop s.cfg

/-- Bytes 5 to 7 of the command frame are zero, after reset and after every ENCODE (R12). -/
def frameTailZero (s : State) : Prop :=
  Memory.read s.cmd 5 = 0x00#8 ∧ Memory.read s.cmd 6 = 0x00#8 ∧ Memory.read s.cmd 7 = 0x00#8

/-- What holds of every state of a block that was instantiated and reset. -/
def Inv (s : State) : Prop :=
  Memory.wf s.cmd = true ∧ Memory.wf s.rsp = true ∧ legalConfig s.cfg = true ∧ frameTailZero s ∧ dutiesWithinTop s

/-! ### Exact numbers (R2, R3, R44) -/

/-- `trunc` of an exact rational (R3). -/
def truncQ (q : ℚ) : ℤ := if 0 ≤ q then ⌊q⌋ else -⌊-q⌋

/-- `round` of an exact rational, ties away from zero (R3). -/
def roundQ (q : ℚ) : ℤ := if 0 ≤ q then ⌊q + 1 / 2⌋ else -⌊-q + 1 / 2⌋

/-- The sign bit, exponent and fraction fields of a binary32 pattern, as numbers (R44). -/
def signBit (p : Pattern32) : ℕ := p.toNat / 2 ^ 31

/-- `e` of R44. -/
def expField (p : Pattern32) : ℕ := p.toNat / 2 ^ 23 % 2 ^ 8

/-- `m` of R44. -/
def fracField (p : Pattern32) : ℕ := p.toNat % 2 ^ 23

/-- The value of a finite pattern, as R44 writes it. -/
def finiteValue (p : Pattern32) : ℚ :=
  if expField p = 0 then (-1) ^ signBit p * (fracField p : ℚ) * 2 ^ (-149 : ℤ)
  else (-1) ^ signBit p * (2 ^ 23 + fracField p : ℚ) * 2 ^ ((expField p : ℤ) - 150)

/-- SET_ANGLE accepts the pattern: it is finite and its value lies in `[0, 180]` (R72). -/
abbrev acceptsAngle (p : Pattern32) : Prop :=
  expField p ≠ 255 ∧ 0 ≤ finiteValue p ∧ finiteValue p ≤ 180

/-- `raw` of R73 for the angle `a`. -/
def rawQ (a : ℚ) : ℤ := truncQ (65535 * a / 180 - 32768)

/-- The duty of R74 for the angle `a`. -/
def normalizedDutyQ (top : ℕ) (a : ℚ) : ℤ := roundQ ((top : ℚ) * ((rawQ a + 32768 : ℤ) : ℚ) / 65535)

/-- `d` of R75 for the angle `a`. -/
def literalDutyQ (top : ℕ) (a : ℚ) : ℤ := roundQ ((top : ℚ) / 255 * (rawQ a : ℚ))

/-- `duty8` of R77 for the angle `a`. -/
def duty8Q (a : ℚ) : ℤ := ⌊255 * a / 180⌋

/-- `hr_duty` of R74 and R75 for the angle `a`: the value written, and the count of free values after it. A LITERAL result outside
`0 .. 65535` is the free value `draw_16()`. -/
def hrDutyQ (s : State) (a : ℚ) : Half × ℕ :=
  match s.cfg.hrMap with
  | .normalized => (bits16 (normalizedDutyQ (timerTop s.cfg) a), s.draws)
  | .literal =>
    if 0 ≤ literalDutyQ (timerTop s.cfg) a ∧ literalDutyQ (timerTop s.cfg) a ≤ 65535 then
      (bits16 (literalDutyQ (timerTop s.cfg) a), s.draws)
    else (Config.freeHalf s.draws, s.draws + 1)

/-! ### The access matrix (R21) -/

/-- What a command can read or write: the state of R10 and the configuration values of R16 and R17. -/
inductive Cell where
  | res
  | cmd (off : Fin 8)
  | rsp (off : Fin 8)
  | cmp (ch : Fin 4)
  | timerTop
  | hrMap
  | pingMarker
deriving DecidableEq, Repr

/-- The content of a cell, as a number. -/
def cellValue : Cell → State → ℕ
  | .res, s => s.res.toNat
  | .cmd off, s => (Memory.read s.cmd off).toNat
  | .rsp off, s => (Memory.read s.rsp off).toNat
  | .cmp 0, s => s.cmp0.toNat
  | .cmp 1, s => s.cmp1.toNat
  | .cmp 2, s => s.cmp2.toNat
  | .cmp 3, s => s.cmp3.toNat
  | .timerTop, s => Machine.timerTop s.cfg
  | .hrMap, s => if s.cfg.hrMap = .normalized then 0 else 1
  | .pingMarker, s => s.cfg.pingMarker.toNat

/-- The cell of a buffer the offset operand names, none for an offset at or above eight (R22). -/
def offsetCells (mk : Fin 8 → Cell) (off : Byte) : List Cell :=
  if h : off.toNat < 8 then [mk ⟨off.toNat, h⟩] else []

/-- The cell of the channel operand, none for a channel at or above four. -/
def channelCells (ch : Byte) : List Cell :=
  if h : ch.toNat < 4 then [.cmp ⟨ch.toNat, h⟩] else []

/-- The column "reads" of R21. -/
def readCells : Instr → List Cell
  | .nop => []
  | .encode .. => []
  | .decodeValue => [.cmd 3, .cmd 4]
  | .readCmd off => offsetCells .cmd off
  | .respWrite .. => []
  | .respRead off => offsetCells .rsp off
  | .pingCheck => [.rsp 0, .pingMarker]
  | .setAngle .. => [.timerTop, .hrMap]
  | .readDuty ch => channelCells ch
  | .readTop => [.timerTop]

/-- The column "writes" of R21. -/
def writeCells : Instr → List Cell
  | .nop => []
  | .encode .. => [.cmd 0, .cmd 1, .cmd 2, .cmd 3, .cmd 4, .cmd 5, .cmd 6, .cmd 7]
  | .decodeValue => [.res]
  | .readCmd _ => [.res]
  | .respWrite off _ => offsetCells .rsp off
  | .respRead _ => [.res]
  | .pingCheck => [.res]
  | .setAngle ch angle => if (validAngle angle).isSome then channelCells ch else []
  | .readDuty _ => [.res]
  | .readTop => [.res]

end Sys2Proof.Safety
end

