-- ==== Sys2Proof/Certificates/Slice0/Obligations.lean ====
section
/-! DEFINITION. The statements about the block, from the numbered rules of spec/. -/

open Sys2Proof Sys2Proof.Machine Sys2Proof.Safety

/-! ### Encoding -/

/-- 30_encoding.md R54: decoding is total; encoding then decoding gives the command and operands back; decoding then encoding gives
the word back with its ignored bits zero. -/
def Obligations.DecodeAndEncodeAgree : Prop :=
  (∀ w : CommandWord,
    (∃ i, decode w = .command i ∧ opcodeOf i = fieldOp w ∧ i.wellFormed = true) ∨
    (decode w = .reservedOpcode (fieldOp w) ∧ ∀ i, opcodeOf i ≠ fieldOp w)) ∧
  (∀ i : Instr, i.wellFormed = true → decode (encode i) = .command i) ∧
  (∀ (w : CommandWord) (i : Instr), decode w = .command i → encode i = w &&& usedMask (formatOf i))

/-- R48: a word with any value in the bits its format ignores decodes and runs as the same word with other ignored bits. -/
def Obligations.IgnoredBitsHaveNoEffect : Prop :=
  ∀ (w w' : CommandWord) (i : Instr), decode w = .command i →
    w' &&& usedMask (formatOf i) = w &&& usedMask (formatOf i) →
    decode w' = .command i ∧ ∀ s : State, runWord w' s = runWord w s

/-- R47 with the operands of R45 and R46: the top byte of the word, as a number, selects the command; every operand is read at the
bit position R42 gives. -/
def Obligations.OpcodeSelectsCommandAndOperands : Prop :=
  ∀ w : CommandWord,
    let op := w.toNat / 2 ^ 56
    let a : Byte := BitVec.ofNat 8 (w.toNat / 2 ^ 48)
    let b : Byte := BitVec.ofNat 8 (w.toNat / 2 ^ 40)
    let c : Byte := BitVec.ofNat 8 (w.toNat / 2 ^ 32)
    let d : Byte := BitVec.ofNat 8 w.toNat
    let imm16 : ℕ := w.toNat % 2 ^ 16
    let value : ℤ := if imm16 < 2 ^ 15 then (imm16 : ℤ) else (imm16 : ℤ) - 2 ^ 16
    (op = 0x00 → decode w = .command .nop) ∧
    (op = 0x01 → decode w = .command (.encode a b c value)) ∧
    (op = 0x02 → decode w = .command .decodeValue) ∧
    (op = 0x03 → decode w = .command (.readCmd a)) ∧
    (op = 0x04 → decode w = .command (.respWrite a d)) ∧
    (op = 0x05 → decode w = .command (.respRead a)) ∧
    (op = 0x06 → decode w = .command .pingCheck) ∧
    (op = 0x10 → decode w = .command (.setAngle a (BitVec.ofNat 32 w.toNat))) ∧
    (op = 0x11 → decode w = .command (.readDuty a)) ∧
    (op = 0x12 → decode w = .command .readTop)

/-- R52: the number each command's word is, every operand at its own bit position and the ignored bits zero. -/
def Obligations.EncodedWordsFollowTheLayout : Prop :=
  (encode .nop).toNat = 0x00 * 2 ^ 56 ∧
  (∀ (t n f : Byte) (v : ℤ), (encode (.encode t n f v)).toNat =
    0x01 * 2 ^ 56 + t.toNat * 2 ^ 48 + n.toNat * 2 ^ 40 + f.toNat * 2 ^ 32 + (v % 2 ^ 16).toNat) ∧
  (encode .decodeValue).toNat = 0x02 * 2 ^ 56 ∧
  (∀ off : Byte, (encode (.readCmd off)).toNat = 0x03 * 2 ^ 56 + off.toNat * 2 ^ 48) ∧
  (∀ off data : Byte, (encode (.respWrite off data)).toNat = 0x04 * 2 ^ 56 + off.toNat * 2 ^ 48 + data.toNat) ∧
  (∀ off : Byte, (encode (.respRead off)).toNat = 0x05 * 2 ^ 56 + off.toNat * 2 ^ 48) ∧
  (encode .pingCheck).toNat = 0x06 * 2 ^ 56 ∧
  (∀ (ch : Byte) (p : Pattern32), (encode (.setAngle ch p)).toNat = 0x10 * 2 ^ 56 + ch.toNat * 2 ^ 48 + p.toNat) ∧
  (∀ ch : Byte, (encode (.readDuty ch)).toNat = 0x11 * 2 ^ 56 + ch.toNat * 2 ^ 48) ∧
  (encode .readTop).toNat = 0x12 * 2 ^ 56

/-- Five words of 95_test_vectors.md (sections 3.2, 3.3, 4, 5.2 and program A of section 8) decode to the commands they stand for, and
a sixth, of section 4, to the refusal of opcode 0x13. -/
def Obligations.WrittenOutWordsDecode : Prop :=
  decode 0x00FFFFFFFFFFFFFF#64 = .command .nop ∧
  decode 0x014102610000FED4#64 = .command (.encode 0x41#8 0x02#8 0x61#8 (-300)) ∧
  decode 0x0304FFFFFFFFFFFF#64 = .command (.readCmd 0x04#8) ∧
  decode 0x0400FFFFFFFFFF50#64 = .command (.respWrite 0x00#8 0x50#8) ∧
  decode 0x1001FFFF42B40000#64 = .command (.setAngle 0x01#8 0x42B40000#32) ∧
  decode 0x1300000000000000#64 = .reservedOpcode 0x13#8

/-- R49: every opcode 0x07 to 0x0F and 0x13 to 0xFF is refused by name, whatever the other bits. -/
def Obligations.ReservedOpcodesAreRefused : Prop :=
  ∀ (s : State) (w : CommandWord),
    ((0x07 ≤ w.toNat / 2 ^ 56 ∧ w.toNat / 2 ^ 56 ≤ 0x0F) ∨ 0x13 ≤ w.toNat / 2 ^ 56) →
    runWord w s = .refused (.reservedOpcode (BitVec.ofNat 8 (w.toNat / 2 ^ 56)))

/-! ### Steps, reset and configuration -/

/-- A step runs the decoded command: the next word the host issues is taken off its stream, and the command is run on the rest of
the state as it is; a reserved opcode is refused. The stream is the model's choice (log entry 1). -/
def Obligations.StepRunsTheIssuedCommand : Prop :=
  ∀ (s : State) (w : CommandWord) (rest : List HostInput), legalConfig s.cfg = true → s.pending = .command w :: rest →
    (∀ i : Instr, decode w = .command i → i.wellFormed = true → step s = exec i { s with pending := rest }) ∧
    (∀ op : Byte, decode w = .reservedOpcode op → step s = .refused (.reservedOpcode op))

/-- R36: commands take effect one at a time, in the order the host issues them; so many steps as there are words run exactly the
commands in sequence. That the words stand in a stream of the state is the model's choice (log entry 1). -/
def Obligations.CommandsRunInTheOrderIssued : Prop :=
  ∀ (is : List Instr) (s : State), legalConfig s.cfg = true → (∀ i ∈ is, i.wellFormed = true) →
    Host.Core.run Sys2Proof.core is.length
      { s with pending := is.map (fun i => HostInput.command (encode i)) ++ s.pending } = execSeq is s

/-- R20: after reset, under every configuration, `RES`, both frames and all compare registers are zero. -/
def Obligations.ResetLeavesEveryRegisterZero : Prop :=
  ∀ c : Config,
    (State.resetWith c).res = 0x0000#16 ∧
    (∀ a, a < 8 → Memory.read (State.resetWith c).cmd a = 0x00#8 ∧ Memory.read (State.resetWith c).rsp a = 0x00#8) ∧
    (State.resetWith c).cmp0 = 0x0000#16 ∧ (State.resetWith c).cmp1 = 0x0000#16 ∧ (State.resetWith c).cmp2 = 0x0000#16 ∧
    (State.resetWith c).cmp3 = 0x00#8

/-- R120 and R121 through a step: a reset of the running block gives the reset state under the same configuration. That reset is an
input between two commands is the model's choice (log entry 3). -/
def Obligations.AppliedResetKeepsTheConfiguration : Prop :=
  ∀ (s : State) (rest : List HostInput), legalConfig s.cfg = true → s.pending = .reset :: rest →
    step s = .next { State.resetWith s.cfg with pending := rest, draws := s.draws }

/-- From R123: what the reset state reads as. The frame is all zero, and 0x00 is none of the three tag bytes the spec gives a value
(Servo, Mosfet, Relay; TAG_PING is open, log entry 10); under NORMALIZED every channel, and under LITERAL
channel 3 alone, is as if `SET_ANGLE ch, 0.0` had been issued, and under LITERAL that command draws a value on channels 0 to 2. -/
def Obligations.ResetStateIsThatOfAngleZero : Prop :=
  ∀ c : Config, legalConfig c = true →
    (∀ a, a < 8 → Memory.read (State.resetWith c).cmd a = 0x00#8) ∧
    (Config.tagServo ≠ 0x00#8 ∧ Config.tagMosfet ≠ 0x00#8 ∧ Config.tagRelay ≠ 0x00#8) ∧
    (c.hrMap = .normalized → ∀ ch : Byte,
      exec (.setAngle ch 0x00000000#32) (State.resetWith c) = .next (State.resetWith c)) ∧
    (c.hrMap = .literal →
      exec (.setAngle 3#8 0x00000000#32) (State.resetWith c) = .next (State.resetWith c) ∧
      exec (.setAngle 0#8 0x00000000#32) (State.resetWith c) =
        .next { State.resetWith c with cmp0 := Config.freeHalf (State.resetWith c).draws, draws := (State.resetWith c).draws + 1 } ∧
      exec (.setAngle 1#8 0x00000000#32) (State.resetWith c) =
        .next { State.resetWith c with cmp1 := Config.freeHalf (State.resetWith c).draws, draws := (State.resetWith c).draws + 1 } ∧
      exec (.setAngle 2#8 0x00000000#32) (State.resetWith c) =
        .next { State.resetWith c with cmp2 := Config.freeHalf (State.resetWith c).draws, draws := (State.resetWith c).draws + 1 })

/-- R70: `TIMER_TOP` is the exact quotient, rounded with ties away from zero. -/
def Obligations.TimerTopIsTheRoundedQuotient : Prop :=
  ∀ c : Config, 0 < c.clockHz → 0 < c.prescaler → 0 < c.pwmFreqHz →
    (timerTop c : ℤ) = roundQ ((c.clockHz : ℚ) / ((c.prescaler : ℚ) * (c.pwmFreqHz : ℚ)))

/-- R71: a configuration with a zero input or a rounded quotient outside `1 .. 65535` is refused and no step runs under it; every
other one is instantiated in the reset state. -/
def Obligations.IllegalConfigurationsAreRefused : Prop :=
  ∀ c : Config,
    let top := roundQ ((c.clockHz : ℚ) / ((c.prescaler : ℚ) * (c.pwmFreqHz : ℚ)))
    (¬(0 < c.clockHz ∧ 0 < c.prescaler ∧ 0 < c.pwmFreqHz ∧ 1 ≤ top ∧ top ≤ 65535) →
      State.instantiate c = .refused .illegalConfiguration ∧
      ∀ s : State, s.cfg = c → step s = .refused .illegalConfiguration) ∧
    (0 < c.clockHz ∧ 0 < c.prescaler ∧ 0 < c.pwmFreqHz ∧ 1 ≤ top ∧ top ≤ 65535 →
      State.instantiate c = .next (State.resetWith c))

/-- R16, R17, R121: no step changes the configuration. -/
def Obligations.StepsKeepTheConfiguration : Prop :=
  ∀ s t : State, step s = .next t → t.cfg = s.cfg

/-- R109: every command completes in its one step, and a step ends otherwise only in one of the two refusals. -/
def Obligations.EveryCommandCompletes : Prop :=
  (∀ (i : Instr) (s : State), ∃ t, exec i s = .next t) ∧
  ∀ s : State, (∃ t, step s = .next t) ∨ (∃ op, step s = .refused (.reservedOpcode op)) ∨
    step s = .refused .illegalConfiguration

/-! ### The frame codec -/

/-- R56: ENCODE writes all eight bytes of `CMD`, the same from every state, the value big-endian and bytes 5 to 7 zero, and changes
nothing else. -/
def Obligations.EncodeBuildsTheCommandFrame : Prop :=
  ∀ (tool toolId function : Byte) (value : ℤ), -32768 ≤ value → value ≤ 32767 →
    ∃ m : Memory, (∀ s : State, exec (.encode tool toolId function value) s = .next { s with cmd := m }) ∧
      Memory.read m 0 = tool ∧ Memory.read m 1 = toolId ∧ Memory.read m 2 = function ∧
      (Memory.read m 3).toNat = (value % 65536).toNat / 256 ∧ (Memory.read m 4).toNat = (value % 65536).toNat % 256 ∧
      Memory.read m 5 = 0x00#8 ∧ Memory.read m 6 = 0x00#8 ∧ Memory.read m 7 = 0x00#8

/-- R58: DECODE_VALUE gives `CMD[3] ++ CMD[4]` and changes nothing but `RES`. -/
def Obligations.DecodeValueReadsTheValueBack : Prop :=
  ∀ s : State, ∃ v : Half, v.toNat = (Memory.read s.cmd 3).toNat * 256 + (Memory.read s.cmd 4).toNat ∧
    exec .decodeValue s = .next { s with res := v }

/-- R59: ENCODE, then any commands but ENCODE, then DECODE_VALUE, gives the value. -/
def Obligations.EncodedValueIsRecovered : Prop :=
  ∀ (tool toolId function : Byte) (value : ℤ) (is : List Instr) (s : State), -32768 ≤ value → value ≤ 32767 →
    (∀ a b c v, Instr.encode a b c v ∉ is) →
    ∃ t u v, exec (.encode tool toolId function value) s = .next t ∧ execSeq is t = .next u ∧
      exec .decodeValue u = .next v ∧ v.res.toInt = value

/-- R60 with R23 and R24: READ_CMD gives the byte, zero-extended; at an offset of 8 or more the low byte is a free value, a fresh
one each time, and the high byte is zero. -/
def Obligations.ReadCmdReadsOneByte : Prop :=
  ∀ (off : Byte) (s : State),
    (off.toNat < 8 → ∃ v : Half, v.toNat = (Memory.read s.cmd off.toNat).toNat ∧
      exec (.readCmd off) s = .next { s with res := v }) ∧
    (8 ≤ off.toNat → ∃ v : Half, v.toNat = (Config.freeByte s.draws).toNat ∧
      exec (.readCmd off) s = .next { s with res := v, draws := s.draws + 1 })

/-- R61 with R25: RESP_WRITE sets one byte of `RSP` and leaves the other seven and everything else; at an offset of 8 or more it
changes nothing. -/
def Obligations.RespWriteDepositsOneByte : Prop :=
  ∀ (off data : Byte) (s : State),
    (off.toNat < 8 → ∃ m : Memory, exec (.respWrite off data) s = .next { s with rsp := m } ∧
      ∀ a, a < 8 → Memory.read m a = if a = off.toNat then data else Memory.read s.rsp a) ∧
    (8 ≤ off.toNat → exec (.respWrite off data) s = .next s)

/-- R62 with R23 and R24: RESP_READ, as READ_CMD but of `RSP`. -/
def Obligations.RespReadReadsOneByte : Prop :=
  ∀ (off : Byte) (s : State),
    (off.toNat < 8 → ∃ v : Half, v.toNat = (Memory.read s.rsp off.toNat).toNat ∧
      exec (.respRead off) s = .next { s with res := v }) ∧
    (8 ≤ off.toNat → ∃ v : Half, v.toNat = (Config.freeByte s.draws).toNat ∧
      exec (.respRead off) s = .next { s with res := v, draws := s.draws + 1 })

/-- R63: PING_CHECK gives 1 exactly when response byte 0 is the Ping marker, for every marker. -/
def Obligations.PingCheckComparesByteZero : Prop :=
  ∀ s : State,
    (Memory.read s.rsp 0 = s.cfg.pingMarker → exec .pingCheck s = .next { s with res := 0x0001#16 }) ∧
    (Memory.read s.rsp 0 ≠ s.cfg.pingMarker → exec .pingCheck s = .next { s with res := 0x0000#16 })

/-- R53: the tagged encodings are ENCODE with the tag byte, and RSP.LOAD leaves its eight bytes in `RSP`. -/
def Obligations.PseudoCommandsExpand : Prop :=
  (∀ (n f : Byte) (v : ℤ) (s : State),
    execSeq (expand (.encServo n f v)) s = exec (.encode 0x41#8 n f v) s ∧
    execSeq (expand (.encMosfet n f v)) s = exec (.encode 0x4D#8 n f v) s ∧
    execSeq (expand (.encRelay n f v)) s = exec (.encode 0x52#8 n f v) s) ∧
  ∀ (b0 b1 b2 b3 b4 b5 b6 b7 : Byte) (s : State), ∃ m : Memory,
    execSeq (expand (.rspLoad b0 b1 b2 b3 b4 b5 b6 b7)) s = .next { s with rsp := m } ∧
    Memory.read m 0 = b0 ∧ Memory.read m 1 = b1 ∧ Memory.read m 2 = b2 ∧ Memory.read m 3 = b3 ∧
    Memory.read m 4 = b4 ∧ Memory.read m 5 = b5 ∧ Memory.read m 6 = b6 ∧ Memory.read m 7 = b7

/-! ### The servo PWM mapper -/

/-- R44: the class and the exact value of every binary32 pattern. -/
def Obligations.PatternsHaveTheirExactValue : Prop :=
  (∀ p : Pattern32,
    (expField p = 255 → fracField p ≠ 0 → f32val p = .nan) ∧
    (expField p = 255 → fracField p = 0 → signBit p = 0 → f32val p = .posInf) ∧
    (expField p = 255 → fracField p = 0 → signBit p = 1 → f32val p = .negInf) ∧
    (expField p ≠ 255 → ∃ k : ℤ, f32val p = .finite k ∧ (k : ℚ) * 2 ^ (-149 : ℤ) = finiteValue p)) ∧
  f32val 0x00000000#32 = .finite 0 ∧ f32val 0x80000000#32 = .finite 0

/-- R72 with R74, R75 and R77: the whole effect of SET_ANGLE, the value written computed exactly over the rationals. -/
def Obligations.SetAngleWritesTheRuledDuty : Prop :=
  ∀ (ch : Byte) (p : Pattern32) (s : State),
    let a := finiteValue p
    exec (.setAngle ch p) s = .next
      (if acceptsAngle p then
        if ch.toNat = 0 then { s with cmp0 := (hrDutyQ s a).1, draws := (hrDutyQ s a).2 }
        else if ch.toNat = 1 then { s with cmp1 := (hrDutyQ s a).1, draws := (hrDutyQ s a).2 }
        else if ch.toNat = 2 then { s with cmp2 := (hrDutyQ s a).1, draws := (hrDutyQ s a).2 }
        else if ch.toNat = 3 then { s with cmp3 := BitVec.ofInt 8 (duty8Q a) }
        else s
      else s)

/-- R73: `raw` is the exact rational truncated toward zero; it fits 16 bits for every valid angle, exceeds -32768 for every
positive one, and is 0 at 90 degrees. -/
def Obligations.RawIntermediateFitsSixteenBits : Prop :=
  (∀ k : ℤ, 0 ≤ k → k ≤ 180 * (unitsPerDegree : ℤ) →
    hrRaw k = rawQ ((k : ℚ) * 2 ^ (-149 : ℤ)) ∧ -32768 ≤ hrRaw k ∧ hrRaw k ≤ 32767 ∧ (0 < k → -32767 ≤ hrRaw k)) ∧
  hrRaw (90 * (unitsPerDegree : ℤ)) = 0

/-- R76: the properties of the NORMALIZED mapping, for every legal `TIMER_TOP`. -/
def Obligations.NormalizedDutyIsBoundedAndMonotone : Prop :=
  ∀ c : Config, legalConfig c = true →
    (∀ k : ℤ, 0 ≤ k → k ≤ 180 * (unitsPerDegree : ℤ) →
      0 ≤ normalizedDuty (timerTop c) k ∧ normalizedDuty (timerTop c) k ≤ timerTop c ∧
      ((bits16 (normalizedDuty (timerTop c) k)).toNat : ℤ) = normalizedDuty (timerTop c) k) ∧
    normalizedDuty (timerTop c) 0 = 0 ∧
    normalizedDuty (timerTop c) (180 * (unitsPerDegree : ℤ)) = timerTop c ∧
    (∀ k k' : ℤ, 0 ≤ k → k ≤ k' → k' ≤ 180 * (unitsPerDegree : ℤ) →
      normalizedDuty (timerTop c) k ≤ normalizedDuty (timerTop c) k') ∧
    (timerTop c = 65535 → ∀ k : ℤ, 0 ≤ k → k ≤ 180 * (unitsPerDegree : ℤ) →
      normalizedDuty (timerTop c) k = hrRaw k + 32768) ∧
    (∀ u j : ℤ, 2 * ((timerTop c : ℤ) * u) ≠ (2 * j + 1) * 65535 ∧ 2 * ((timerTop c : ℤ) * u) ≠ (2 * j + 1) * 255)

/-- R74 and R77 at the source's worked angles: under NORMALIZED, 0 degrees on channel 0 gives 0, 180 degrees on channel 1 gives
`TIMER_TOP`, and 90 degrees on channel 2 gives 10000 with `TIMER_TOP = 20000`; channel 3 gets 0, 127 and 255, whatever `TIMER_TOP` and `HR_MAP`. -/
def Obligations.WorkedAnglesGiveTheirDuties : Prop :=
  ∀ s : State,
    (legalConfig s.cfg = true → s.cfg.hrMap = .normalized →
      exec (.setAngle 0#8 0x00000000#32) s = .next { s with cmp0 := 0x0000#16 } ∧
      exec (.setAngle 1#8 0x43340000#32) s = .next { s with cmp1 := BitVec.ofNat 16 (timerTop s.cfg) } ∧
      (timerTop s.cfg = 20000 → exec (.setAngle 2#8 0x42B40000#32) s = .next { s with cmp2 := 10000#16 })) ∧
    exec (.setAngle 3#8 0x00000000#32) s = .next { s with cmp3 := 0#8 } ∧
    exec (.setAngle 3#8 0x42B40000#32) s = .next { s with cmp3 := 127#8 } ∧
    exec (.setAngle 3#8 0x43340000#32) s = .next { s with cmp3 := 255#8 }

/-- R75 with `TIMER_TOP = 20000`: the LITERAL result fits 16 bits exactly for `0 ≤ raw ≤ 835`; for every other valid angle the value
is a free one, a fresh one each time. -/
def Obligations.LiteralMappingFitsOnlyNearNinetyDegrees : Prop :=
  (∀ k : ℤ, 0 ≤ k → k ≤ 180 * (unitsPerDegree : ℤ) →
    ((0 ≤ literalDuty 20000 k ∧ literalDuty 20000 k ≤ 65535) ↔ (0 ≤ hrRaw k ∧ hrRaw k ≤ 835))) ∧
  ∀ (s : State) (p : Pattern32) (k : ℤ), s.cfg.hrMap = .literal → timerTop s.cfg = 20000 → validAngle p = some k →
    (hrRaw k < 0 ∨ 835 < hrRaw k) →
    exec (.setAngle 0#8 p) s = .next { s with cmp0 := Config.freeHalf s.draws, draws := s.draws + 1 } ∧
    exec (.setAngle 1#8 p) s = .next { s with cmp1 := Config.freeHalf s.draws, draws := s.draws + 1 } ∧
    exec (.setAngle 2#8 p) s = .next { s with cmp2 := Config.freeHalf s.draws, draws := s.draws + 1 }

/-- R79: READ_DUTY gives the channel's register, zero-extended for channel 3, and zero for a channel of 4 or more. -/
def Obligations.ReadDutyReadsTheChannel : Prop :=
  ∀ (ch : Byte) (s : State), ∃ v : Half, exec (.readDuty ch) s = .next { s with res := v } ∧
    (ch.toNat = 0 → v = s.cmp0) ∧ (ch.toNat = 1 → v = s.cmp1) ∧ (ch.toNat = 2 → v = s.cmp2) ∧
    (ch.toNat = 3 → v.toNat = s.cmp3.toNat) ∧ (4 ≤ ch.toNat → v = 0x0000#16)

/-- R80: READ_TOP gives `TIMER_TOP`, which fits the register under every legal configuration. -/
def Obligations.ReadTopReadsTheTimerTop : Prop :=
  ∀ s : State, legalConfig s.cfg = true → ∃ v : Half, v.toNat = timerTop s.cfg ∧
    exec .readTop s = .next { s with res := v }

/-! ### Housekeeping and whole-machine rules -/

/-- R90: NOP changes no state. -/
def Obligations.NopChangesNothing : Prop :=
  ∀ s : State, exec .nop s = .next s

/-- R21: each command writes only the cells of its row, and what it writes depends only on the cells its row reads (on two states
that have taken equally many free values). -/
def Obligations.CommandsKeepToTheAccessMatrix : Prop :=
  (∀ (i : Instr) (s t : State) (c : Cell), exec i s = .next t → c ∉ writeCells i → cellValue c t = cellValue c s) ∧
  (∀ (i : Instr) (s s' t t' : State), exec i s = .next t → exec i s' = .next t' → s.draws = s'.draws →
    (∀ c ∈ readCells i, cellValue c s = cellValue c s') → ∀ c ∈ writeCells i, cellValue c t = cellValue c t')

/-- R11 to R14 over all steps: `CMD` changes only by ENCODE, `RSP` only by RESP_WRITE at an offset below 8, a compare register only
by SET_ANGLE with its channel and a valid angle, `RES` only by a result-producing command; or by reset. -/
def Obligations.OnlyTheNamedCommandsChangeEachRegister : Prop :=
  ∀ s t : State, step s = .next t →
    (∃ rest, s.pending = .reset :: rest) ∨
    ((t.cmd ≠ s.cmd → ∃ w rest a b c v, s.pending = .command w :: rest ∧ decode w = .command (.encode a b c v)) ∧
     (t.rsp ≠ s.rsp → ∃ w rest off d, s.pending = .command w :: rest ∧ decode w = .command (.respWrite off d) ∧ off.toNat < 8) ∧
     (t.cmp0 ≠ s.cmp0 → ∃ w rest p, s.pending = .command w :: rest ∧ decode w = .command (.setAngle 0#8 p) ∧ acceptsAngle p) ∧
     (t.cmp1 ≠ s.cmp1 → ∃ w rest p, s.pending = .command w :: rest ∧ decode w = .command (.setAngle 1#8 p) ∧ acceptsAngle p) ∧
     (t.cmp2 ≠ s.cmp2 → ∃ w rest p, s.pending = .command w :: rest ∧ decode w = .command (.setAngle 2#8 p) ∧ acceptsAngle p) ∧
     (t.cmp3 ≠ s.cmp3 → ∃ w rest p, s.pending = .command w :: rest ∧ decode w = .command (.setAngle 3#8 p) ∧ acceptsAngle p) ∧
     (t.res ≠ s.res → ∃ w rest i, s.pending = .command w :: rest ∧ decode w = .command i ∧ Cell.res ∈ writeCells i))

/-- From R34, with the exception of R81: a read writes nothing but `RES` (and, out of range, takes a free value, log entry 6); and any
command that took no free value changes nothing more when it is issued again, so a read gives the same `RES` and a write the same state. A
SET_ANGLE whose LITERAL result is drawn takes one (R81, log entry 7). Every command but an out-of-range read and a SET_ANGLE under LITERAL
takes none; which SET_ANGLE under LITERAL take none is in `SetAngleWritesTheRuledDuty`. -/
def Obligations.RepeatingACommandChangesNothingMore : Prop :=
  (∀ (i : Instr) (s t : State), exec i s = .next t → Cell.res ∈ writeCells i →
    t = { s with res := t.res, draws := t.draws }) ∧
  (∀ (i : Instr) (s t : State), exec i s = .next t → t.draws = s.draws → exec i t = .next t) ∧
  (∀ (i : Instr) (s t : State), exec i s = .next t →
    (∀ off, (i = .readCmd off ∨ i = .respRead off) → off.toNat < 8) →
    (∀ ch p, i = .setAngle ch p → s.cfg.hrMap = .normalized) → t.draws = s.draws)

/-- The invariant: both buffers in canonical form, a legal configuration, bytes 5 to 7 of the command frame zero (R12), and under
NORMALIZED every 16-bit compare register at most `TIMER_TOP` (R14). Every step keeps it. -/
def Obligations.StepsKeepTheInvariant : Prop :=
  ∀ s t : State, Inv s → step s = .next t → Inv t

/-- The invariant holds at reset, under every legal configuration and at `State.reset`. -/
def Obligations.ResetMeetsTheInvariant : Prop :=
  (∀ c : Config, legalConfig c = true → Inv (State.resetWith c)) ∧ Inv State.reset
end

