-- ==== Sys2Proof/Laws/Decode.lean ====
section
/-! SUPPORT. Where the fields of an encoded word stand, and what a decoded word was. -/

namespace Sys2Proof

/-- The bits of a placed field. -/
theorem getLsbD_place {n : Nat} (v : BitVec n) (lo k : Nat) :
    (place v lo).getLsbD k = (decide (k < 64) && decide (lo ≤ k) && v.getLsbD (k - lo)) := by
  simp only [place, BitVec.getLsbD_shiftLeft, BitVec.getLsbD_setWidth]
  by_cases h : k < 64 <;> by_cases h' : lo ≤ k
  · have h1 : ¬k < lo := by omega
    have h2 : k - lo < 64 := by omega
    simp [h, h', h1, h2]
  all_goals simp [h, h']

/-- The bits of a field of a word (R1). -/
theorem getLsbD_field (w : CommandWord) (lo n k : Nat) :
    (field w lo n).getLsbD k = (decide (k < n) && w.getLsbD (lo + k)) := by
  simp [field]

/-- No operand reaches the opcode's byte (R42). -/
theorem operandBits_getLsbD_high (i : Instr) {k : Nat} (hk : 56 ≤ k) : (operandBits i).getLsbD k = false := by
  have h8 (v : Byte) (lo : Nat) (h : lo ≤ 48) : v.getLsbD (k - lo) = false := BitVec.getLsbD_of_ge _ _ (by omega)
  have h16 (v : Half) : v.getLsbD k = false := BitVec.getLsbD_of_ge _ _ (by omega)
  have h32 (v : Pattern32) : v.getLsbD k = false := BitVec.getLsbD_of_ge _ _ (by omega)
  have h8' (v : Byte) : v.getLsbD k = false := BitVec.getLsbD_of_ge _ _ (by omega)
  cases i <;> simp [operandBits, getLsbD_place, h8, h16, h32, h8']

/-- The opcode of an encoded command (R52). -/
@[simp] theorem fieldOp_encode (i : Instr) : fieldOp (encode i) = opcodeOf i := by
  apply BitVec.eq_of_getLsbD_eq
  intro k hk
  have h64 : 56 + k < 64 := by omega
  rw [fieldOp, getLsbD_field, encode, BitVec.getLsbD_or, getLsbD_place, operandBits_getLsbD_high i (show 56 ≤ 56 + k by omega)]
  simp only [hk, h64, Nat.le_add_right, decide_true, Bool.true_and, Bool.or_false, Nat.add_sub_cancel_left]

/-- The opcode's byte has no operand bits under it. -/
theorem place_op_getLsbD_low (op : Byte) {k : Nat} (hk : k < 56) : (place op 56).getLsbD k = false := by
  have h : ¬56 ≤ k := by omega
  simp [getLsbD_place, h]

/-- A field below the opcode is read from the operand bits alone. -/
theorem field_encode (i : Instr) {lo n : Nat} (h : lo + n ≤ 56) : field (encode i) lo n = field (operandBits i) lo n := by
  apply BitVec.eq_of_getLsbD_eq
  intro k hk
  simp [getLsbD_field, encode, place_op_getLsbD_low _ (show lo + k < 56 by omega)]

/-- A field read where it was placed. -/
theorem field_place_self {n : Nat} (v : BitVec n) {lo : Nat} (h : lo + n ≤ 64) : field (place v lo) lo n = v := by
  apply BitVec.eq_of_getLsbD_eq
  intro k hk
  have h1 : lo + k < 64 := by omega
  rw [getLsbD_field, getLsbD_place]
  simp only [hk, h1, Nat.le_add_right, decide_true, Bool.true_and, Nat.add_sub_cancel_left]

/-- A field read below another's place sees nothing of it. -/
theorem field_place_above {m : Nat} (v : BitVec m) {lo p n : Nat} (h : lo + n ≤ p) : field (place v p) lo n = 0#n := by
  apply BitVec.eq_of_getLsbD_eq
  intro k hk
  have h1 : ¬p ≤ lo + k := by omega
  simp [getLsbD_field, getLsbD_place, h1]

/-- A field read above another's end sees nothing of it. -/
theorem field_place_below {m : Nat} (v : BitVec m) {lo p n : Nat} (h : p + m ≤ lo) : field (place v p) lo n = 0#n := by
  apply BitVec.eq_of_getLsbD_eq
  intro k hk
  have h1 : v.getLsbD (lo + k - p) = false := BitVec.getLsbD_of_ge _ _ (by omega)
  simp [getLsbD_field, getLsbD_place, h1]

/-- A field of two words laid over each other. -/
theorem field_or (w w' : CommandWord) (lo n : Nat) : field (w ||| w') lo n = field w lo n ||| field w' lo n := by
  apply BitVec.eq_of_getLsbD_eq
  intro k _
  simp [getLsbD_field, Bool.and_or_distrib_left]

/-- `sval_16(bits_16(x)) = x` for `x` in `s16` (R59). -/
theorem sval16_bits16 {v : Int} (h : inS16 v = true) : sval16 (bits16 v) = v := by
  simp only [inS16, Bool.and_eq_true, decide_eq_true_eq] at h
  simp only [sval16, bits16, BitVec.toInt_ofInt]
  exact Int.bmod_eq_of_le (by omega) (by omega)

/-- `bits_16(sval_16(p)) = p`. -/
@[simp] theorem bits16_sval16 (p : Half) : bits16 (sval16 p) = p := by simp [bits16, sval16]

/-- A signed value read from 16 bits is in range (R45). -/
theorem inS16_sval16 (p : Half) : inS16 (sval16 p) = true := by
  have h := @BitVec.le_toInt 16 p
  have h' := @BitVec.toInt_lt 16 p
  simp only [Nat.reduceSub, Int.reducePow, Int.reduceNeg] at h h'
  rw [inS16, sval16, Bool.and_eq_true, decide_eq_true_eq, decide_eq_true_eq]
  omega

end Sys2Proof
end

