-- ==== Sys2Proof/Laws/Memory.lean ====
section
/-! SUPPORT. The laws of the frame buffers: what a read gives after a write, and that every operation leaves the canonical
form. -/

namespace Sys2Proof.Machine

@[simp] theorem frameCapacity_eq : frameCapacity = 8 := rfl

/-- Reading the list an increasing key list filters to. -/
theorem Memory.read_filterMap (f : Nat → Byte) (k : Nat) : ∀ l : List Nat,
    Memory.read (l.filterMap (fun a => if f a = Memory.unlisted then none else some (a, f a))) k =
      if k ∈ l then f k else Memory.unlisted
  | [] => by simp [Memory.read]
  | a :: l => by
    have ih := Memory.read_filterMap f k l
    by_cases h : f a = Memory.unlisted
    · by_cases hk : k = a
      · subst hk
        simp [h, ih]
      · simp [h, ih, hk]
    · by_cases hk : k = a
      · subst hk
        simp [h, Memory.read]
      · simp [h, ih, hk, Memory.read, Ne.symm hk]

/-- A buffer built from its bytes reads as those bytes, and as the unlisted byte past its end. -/
@[simp] theorem Memory.read_ofBytes (f : Nat → Byte) (k : Nat) :
    Memory.read (Memory.ofBytes f) k = if k < 8 then f k else Memory.unlisted := by
  simp [Memory.ofBytes, Memory.read_filterMap]

/-- Only the first eight bytes matter. -/
theorem Memory.ofBytes_congr {f g : Nat → Byte} (h : ∀ a, a < 8 → f a = g a) :
    Memory.ofBytes f = Memory.ofBytes g := by
  refine List.filterMap_congr fun a ha => ?_
  rw [h a (List.mem_range.mp ha)]

/-- R25: the byte written, and the other seven as they were. -/
@[simp] theorem Memory.read_write (m : Memory) (k a : Nat) (v : Byte) :
    Memory.read (Memory.write m k v) a = if a < 8 then if a = k then v else Memory.read m a else Memory.unlisted :=
  Memory.read_ofBytes _ a

/-- Writing the same byte twice is writing it once (R34). -/
theorem Memory.write_write (m : Memory) (k : Nat) (v : Byte) :
    Memory.write (Memory.write m k v) k v = Memory.write m k v := by
  refine Memory.ofBytes_congr fun a ha => ?_
  by_cases h : a = k
  · simp [h]
  · simp [h, ha]

/-- Filtering a rising key list leaves a rising one. -/
theorem Memory.risingFrom_filterMap (f : Nat → Byte) : ∀ (l : List Nat) (lo : Nat),
    (lo :: l).Pairwise (· < ·) →
    Memory.risingFrom (some lo) (l.filterMap (fun a => if f a = Memory.unlisted then none else some (a, f a))) = true
  | [], _, _ => rfl
  | a :: l, lo, h => by
    have hlo : lo < a := (List.pairwise_cons.mp h).1 a (by simp)
    by_cases hf : f a = Memory.unlisted
    · have h' : (lo :: l).Pairwise (· < ·) := h.sublist (by simp)
      simpa [hf] using Memory.risingFrom_filterMap f l lo h'
    · have h' := Memory.risingFrom_filterMap f l a (List.pairwise_cons.mp h).2
      simpa [hf, Memory.risingFrom, hlo] using h'

/-- The same without a lower bound. -/
theorem Memory.risingFrom_none {lo : Nat} : ∀ {m : Memory}, Memory.risingFrom (some lo) m = true →
    Memory.risingFrom none m = true
  | [], _ => rfl
  | (a, b) :: m, h => by
    simp only [Memory.risingFrom, Bool.and_eq_true] at h
    exact h.2

/-- A buffer built from its bytes is canonical. -/
@[simp] theorem Memory.wf_ofBytes (f : Nat → Byte) : Memory.wf (Memory.ofBytes f) = true := by
  have hall : (Memory.ofBytes f).all (fun c => decide (c.1 < frameCapacity) && decide (c.2 ≠ Memory.unlisted)) = true := by
    simp only [Memory.ofBytes, List.all_eq_true, List.mem_filterMap, List.mem_range]
    rintro c ⟨a, ha, hc⟩
    by_cases hf : f a = Memory.unlisted
    · simp [hf] at hc
    · simp only [hf, if_false, Option.some.injEq] at hc
      subst hc
      rw [Bool.and_eq_true]
      exact ⟨decide_eq_true ha, decide_eq_true hf⟩
  have hrise : Memory.risingFrom none (Memory.ofBytes f) = true := by
    have hr : List.range 8 = 0 :: [1, 2, 3, 4, 5, 6, 7] := rfl
    have ht := Memory.risingFrom_filterMap f [1, 2, 3, 4, 5, 6, 7] 0 (by decide)
    by_cases hf : f 0 = Memory.unlisted
    · simpa [Memory.ofBytes, hr, hf] using Memory.risingFrom_none ht
    · simpa [Memory.ofBytes, hr, hf, Memory.risingFrom] using ht
  rw [Memory.wf, hrise, hall, Bool.and_self]

/-- A write keeps the canonical form, from any buffer. -/
@[simp] theorem Memory.wf_write (m : Memory) (k : Nat) (v : Byte) : Memory.wf (Memory.write m k v) = true :=
  Memory.wf_ofBytes _

/-- Both buffers are canonical at reset. -/
theorem State.resetWith_wf (c : Config) :
    Memory.wf (State.resetWith c).cmd = true ∧ Memory.wf (State.resetWith c).rsp = true := ⟨rfl, rfl⟩

end Sys2Proof.Machine
end

