-- ==== Sys2Proof/Laws/Numeric.lean ====
section
/-! SUPPORT. The integer rounding functions are those of 00_scope.md rule R3 on the exact quotient. -/

namespace Sys2Proof.Machine

open Sys2Proof.Safety

/-- `floor(n / d)`. -/
theorem floorDiv_eq_floor (n : Int) (d : Nat) : floorDiv n d = ⌊(n : ℚ) / (d : ℚ)⌋ := by
  simpa [floorDiv] using (Rat.floor_intCast_div_natCast n d).symm

/-- `trunc(n / d)`. -/
theorem truncDiv_eq_truncQ (n : Int) {d : Nat} (hd : 0 < d) : truncDiv n d = truncQ ((n : ℚ) / (d : ℚ)) := by
  have hd' : (0 : ℚ) < d := by exact_mod_cast hd
  have hn : (0 : ℚ) ≤ (n : ℚ) / d ↔ 0 ≤ n := by
    rw [le_div_iff₀ hd', zero_mul, Int.cast_nonneg_iff]
  simp only [truncDiv, truncQ, hn, floorDiv_eq_floor]
  split <;> simp [neg_div]

/-- `round(n / d)`. -/
theorem roundDiv_eq_roundQ (n : Int) {d : Nat} (hd : 0 < d) : roundDiv n d = roundQ ((n : ℚ) / (d : ℚ)) := by
  have hd' : (0 : ℚ) < d := by exact_mod_cast hd
  have hn : (0 : ℚ) ≤ (n : ℚ) / d ↔ 0 ≤ n := by
    rw [le_div_iff₀ hd', zero_mul, Int.cast_nonneg_iff]
  have half (m : Int) : ((2 * m + (d : Int) : Int) : ℚ) / ((2 * d : Nat) : ℚ) = (m : ℚ) / d + 1 / 2 := by
    push_cast
    field_simp
  simp only [roundDiv, roundQ, hn, floorDiv_eq_floor]
  split
  · rw [half]
  · rw [show -(2 * n) + (d : Int) = 2 * (-n) + d by ring, half]
    simp [neg_div]

end Sys2Proof.Machine
end

