-- ==== Sys2Proof/Laws/State.lean ====
section
/-! SUPPORT. What every field is after every update of the state. -/

namespace Sys2Proof.Machine

@[simp] theorem State.setRes_res (s : State) (v : Half) : (s.setRes v).res = v := rfl
@[simp] theorem State.setRes_cmd (s : State) (v : Half) : (s.setRes v).cmd = s.cmd := rfl
@[simp] theorem State.setRes_rsp (s : State) (v : Half) : (s.setRes v).rsp = s.rsp := rfl
@[simp] theorem State.setRes_cmp0 (s : State) (v : Half) : (s.setRes v).cmp0 = s.cmp0 := rfl
@[simp] theorem State.setRes_cmp1 (s : State) (v : Half) : (s.setRes v).cmp1 = s.cmp1 := rfl
@[simp] theorem State.setRes_cmp2 (s : State) (v : Half) : (s.setRes v).cmp2 = s.cmp2 := rfl
@[simp] theorem State.setRes_cmp3 (s : State) (v : Half) : (s.setRes v).cmp3 = s.cmp3 := rfl
@[simp] theorem State.setRes_cfg (s : State) (v : Half) : (s.setRes v).cfg = s.cfg := rfl
@[simp] theorem State.setRes_pending (s : State) (v : Half) : (s.setRes v).pending = s.pending := rfl
@[simp] theorem State.setRes_draws (s : State) (v : Half) : (s.setRes v).draws = s.draws := rfl

@[simp] theorem State.setCmd_res (s : State) (m : Memory) : (s.setCmd m).res = s.res := rfl
@[simp] theorem State.setCmd_cmd (s : State) (m : Memory) : (s.setCmd m).cmd = m := rfl
@[simp] theorem State.setCmd_rsp (s : State) (m : Memory) : (s.setCmd m).rsp = s.rsp := rfl
@[simp] theorem State.setCmd_cmp0 (s : State) (m : Memory) : (s.setCmd m).cmp0 = s.cmp0 := rfl
@[simp] theorem State.setCmd_cmp1 (s : State) (m : Memory) : (s.setCmd m).cmp1 = s.cmp1 := rfl
@[simp] theorem State.setCmd_cmp2 (s : State) (m : Memory) : (s.setCmd m).cmp2 = s.cmp2 := rfl
@[simp] theorem State.setCmd_cmp3 (s : State) (m : Memory) : (s.setCmd m).cmp3 = s.cmp3 := rfl
@[simp] theorem State.setCmd_cfg (s : State) (m : Memory) : (s.setCmd m).cfg = s.cfg := rfl
@[simp] theorem State.setCmd_pending (s : State) (m : Memory) : (s.setCmd m).pending = s.pending := rfl
@[simp] theorem State.setCmd_draws (s : State) (m : Memory) : (s.setCmd m).draws = s.draws := rfl

@[simp] theorem State.setRsp_res (s : State) (m : Memory) : (s.setRsp m).res = s.res := rfl
@[simp] theorem State.setRsp_cmd (s : State) (m : Memory) : (s.setRsp m).cmd = s.cmd := rfl
@[simp] theorem State.setRsp_rsp (s : State) (m : Memory) : (s.setRsp m).rsp = m := rfl
@[simp] theorem State.setRsp_cmp0 (s : State) (m : Memory) : (s.setRsp m).cmp0 = s.cmp0 := rfl
@[simp] theorem State.setRsp_cmp1 (s : State) (m : Memory) : (s.setRsp m).cmp1 = s.cmp1 := rfl
@[simp] theorem State.setRsp_cmp2 (s : State) (m : Memory) : (s.setRsp m).cmp2 = s.cmp2 := rfl
@[simp] theorem State.setRsp_cmp3 (s : State) (m : Memory) : (s.setRsp m).cmp3 = s.cmp3 := rfl
@[simp] theorem State.setRsp_cfg (s : State) (m : Memory) : (s.setRsp m).cfg = s.cfg := rfl
@[simp] theorem State.setRsp_pending (s : State) (m : Memory) : (s.setRsp m).pending = s.pending := rfl
@[simp] theorem State.setRsp_draws (s : State) (m : Memory) : (s.setRsp m).draws = s.draws := rfl

@[simp] theorem State.setCmp3_res (s : State) (v : Byte) : (s.setCmp3 v).res = s.res := rfl
@[simp] theorem State.setCmp3_cmd (s : State) (v : Byte) : (s.setCmp3 v).cmd = s.cmd := rfl
@[simp] theorem State.setCmp3_rsp (s : State) (v : Byte) : (s.setCmp3 v).rsp = s.rsp := rfl
@[simp] theorem State.setCmp3_cmp0 (s : State) (v : Byte) : (s.setCmp3 v).cmp0 = s.cmp0 := rfl
@[simp] theorem State.setCmp3_cmp1 (s : State) (v : Byte) : (s.setCmp3 v).cmp1 = s.cmp1 := rfl
@[simp] theorem State.setCmp3_cmp2 (s : State) (v : Byte) : (s.setCmp3 v).cmp2 = s.cmp2 := rfl
@[simp] theorem State.setCmp3_cmp3 (s : State) (v : Byte) : (s.setCmp3 v).cmp3 = v := rfl
@[simp] theorem State.setCmp3_cfg (s : State) (v : Byte) : (s.setCmp3 v).cfg = s.cfg := rfl
@[simp] theorem State.setCmp3_pending (s : State) (v : Byte) : (s.setCmp3 v).pending = s.pending := rfl
@[simp] theorem State.setCmp3_draws (s : State) (v : Byte) : (s.setCmp3 v).draws = s.draws := rfl

@[simp] theorem State.nextDraw_res (s : State) : (s.nextDraw).res = s.res := rfl
@[simp] theorem State.nextDraw_cmd (s : State) : (s.nextDraw).cmd = s.cmd := rfl
@[simp] theorem State.nextDraw_rsp (s : State) : (s.nextDraw).rsp = s.rsp := rfl
@[simp] theorem State.nextDraw_cmp0 (s : State) : (s.nextDraw).cmp0 = s.cmp0 := rfl
@[simp] theorem State.nextDraw_cmp1 (s : State) : (s.nextDraw).cmp1 = s.cmp1 := rfl
@[simp] theorem State.nextDraw_cmp2 (s : State) : (s.nextDraw).cmp2 = s.cmp2 := rfl
@[simp] theorem State.nextDraw_cmp3 (s : State) : (s.nextDraw).cmp3 = s.cmp3 := rfl
@[simp] theorem State.nextDraw_cfg (s : State) : (s.nextDraw).cfg = s.cfg := rfl
@[simp] theorem State.nextDraw_pending (s : State) : (s.nextDraw).pending = s.pending := rfl
@[simp] theorem State.nextDraw_draws (s : State) : (s.nextDraw).draws = s.draws + 1 := rfl

@[simp] theorem State.setPending_res (s : State) (q : List HostInput) : (s.setPending q).res = s.res := rfl
@[simp] theorem State.setPending_cmd (s : State) (q : List HostInput) : (s.setPending q).cmd = s.cmd := rfl
@[simp] theorem State.setPending_rsp (s : State) (q : List HostInput) : (s.setPending q).rsp = s.rsp := rfl
@[simp] theorem State.setPending_cmp0 (s : State) (q : List HostInput) : (s.setPending q).cmp0 = s.cmp0 := rfl
@[simp] theorem State.setPending_cmp1 (s : State) (q : List HostInput) : (s.setPending q).cmp1 = s.cmp1 := rfl
@[simp] theorem State.setPending_cmp2 (s : State) (q : List HostInput) : (s.setPending q).cmp2 = s.cmp2 := rfl
@[simp] theorem State.setPending_cmp3 (s : State) (q : List HostInput) : (s.setPending q).cmp3 = s.cmp3 := rfl
@[simp] theorem State.setPending_cfg (s : State) (q : List HostInput) : (s.setPending q).cfg = s.cfg := rfl
@[simp] theorem State.setPending_pending (s : State) (q : List HostInput) : (s.setPending q).pending = q := rfl
@[simp] theorem State.setPending_draws (s : State) (q : List HostInput) : (s.setPending q).draws = s.draws := rfl

@[simp] theorem State.applyReset_res (s : State) : (s.applyReset).res = 0x0000#16 := rfl
@[simp] theorem State.applyReset_cmd (s : State) : (s.applyReset).cmd = [] := rfl
@[simp] theorem State.applyReset_rsp (s : State) : (s.applyReset).rsp = [] := rfl
@[simp] theorem State.applyReset_cmp0 (s : State) : (s.applyReset).cmp0 = 0x0000#16 := rfl
@[simp] theorem State.applyReset_cmp1 (s : State) : (s.applyReset).cmp1 = 0x0000#16 := rfl
@[simp] theorem State.applyReset_cmp2 (s : State) : (s.applyReset).cmp2 = 0x0000#16 := rfl
@[simp] theorem State.applyReset_cmp3 (s : State) : (s.applyReset).cmp3 = 0x00#8 := rfl
@[simp] theorem State.applyReset_cfg (s : State) : (s.applyReset).cfg = s.cfg := rfl
@[simp] theorem State.applyReset_pending (s : State) : (s.applyReset).pending = s.pending := rfl
@[simp] theorem State.applyReset_draws (s : State) : (s.applyReset).draws = s.draws := rfl

@[simp] theorem State.setHrCmp_res (s : State) (c : HrChannel) (v : Half) : (s.setHrCmp c v).res = s.res := by cases c <;> rfl
@[simp] theorem State.setHrCmp_cmd (s : State) (c : HrChannel) (v : Half) : (s.setHrCmp c v).cmd = s.cmd := by cases c <;> rfl
@[simp] theorem State.setHrCmp_rsp (s : State) (c : HrChannel) (v : Half) : (s.setHrCmp c v).rsp = s.rsp := by cases c <;> rfl
@[simp] theorem State.setHrCmp_cmp3 (s : State) (c : HrChannel) (v : Half) : (s.setHrCmp c v).cmp3 = s.cmp3 := by cases c <;> rfl
@[simp] theorem State.setHrCmp_cfg (s : State) (c : HrChannel) (v : Half) : (s.setHrCmp c v).cfg = s.cfg := by cases c <;> rfl
@[simp] theorem State.setHrCmp_pending (s : State) (c : HrChannel) (v : Half) : (s.setHrCmp c v).pending = s.pending := by cases c <;> rfl
@[simp] theorem State.setHrCmp_draws (s : State) (c : HrChannel) (v : Half) : (s.setHrCmp c v).draws = s.draws := by cases c <;> rfl

@[simp] theorem State.hrCmp_setHrCmp (s : State) (c d : HrChannel) (v : Half) :
    (s.setHrCmp c v).hrCmp d = if d = c then v else s.hrCmp d := by cases c <;> cases d <;> rfl

@[simp] theorem State.setRes_hrCmp (s : State) (v : Half) (c : HrChannel) : (s.setRes v).hrCmp c = s.hrCmp c := by cases c <;> rfl
@[simp] theorem State.setCmd_hrCmp (s : State) (m : Memory) (c : HrChannel) : (s.setCmd m).hrCmp c = s.hrCmp c := by cases c <;> rfl
@[simp] theorem State.setRsp_hrCmp (s : State) (m : Memory) (c : HrChannel) : (s.setRsp m).hrCmp c = s.hrCmp c := by cases c <;> rfl
@[simp] theorem State.setCmp3_hrCmp (s : State) (v : Byte) (c : HrChannel) : (s.setCmp3 v).hrCmp c = s.hrCmp c := by cases c <;> rfl
@[simp] theorem State.nextDraw_hrCmp (s : State) (c : HrChannel) : (s.nextDraw).hrCmp c = s.hrCmp c := by cases c <;> rfl
@[simp] theorem State.setPending_hrCmp (s : State) (q : List HostInput) (c : HrChannel) : (s.setPending q).hrCmp c = s.hrCmp c := by cases c <;> rfl

@[simp] theorem State.resetWith_cfg (c : Config) : (State.resetWith c).cfg = c := rfl

end Sys2Proof.Machine
end

