-- ==== Sys2Proof/Laws/Ops.lean ====
section
/-! SUPPORT. Everything each shared operation can do, once. -/

namespace Sys2Proof.Machine

/-- `MemRead` in range: the byte, and no change (R23). -/
theorem memRead_inside (b : Buffer) {a : Nat} (s : State) (h : a < frameCapacity) :
    memRead b a s = (Memory.read (s.buffer b) a, s) := if_pos h

/-- `MemRead` out of range: a free byte, one more taken (R24). -/
theorem memRead_outside (b : Buffer) {a : Nat} (s : State) (h : ¬a < frameCapacity) :
    memRead b a s = (Config.freeByte s.draws, s.nextDraw) := if_neg h

/-- `RES` from a byte in range. -/
theorem readToRes_inside (b : Buffer) {a : Nat} (s : State) (h : a < frameCapacity) :
    readToRes b a s = s.setRes (zext16 (Memory.read (s.buffer b) a)) := by
  rw [readToRes, memRead_inside b s h]

/-- `RES` from an offset out of range. -/
theorem readToRes_outside (b : Buffer) {a : Nat} (s : State) (h : ¬a < frameCapacity) :
    readToRes b a s = s.nextDraw.setRes (zext16 (Config.freeByte s.draws)) := by
  rw [readToRes, memRead_outside b s h]

/-- The byte store of RESP_WRITE in range (R25). -/
theorem memWriteRsp_inside {a : Nat} (v : Byte) (s : State) (h : a < frameCapacity) :
    memWriteRsp a v s = s.setRsp (Memory.write s.rsp a v) := if_pos h

/-- The byte store of RESP_WRITE out of range (R26). -/
theorem memWriteRsp_outside {a : Nat} (v : Byte) (s : State) (h : ¬a < frameCapacity) : memWriteRsp a v s = s := if_neg h

/-- `zext_16` keeps the value. -/
@[simp] theorem zext16_toNat (b : Byte) : (zext16 b).toNat = b.toNat := by
  have := b.isLt
  simp only [zext16, BitVec.toNat_setWidth]
  omega

/-- A byte is below 256, so `channelOf` is a case on its number. -/
theorem channelOf_eq (ch : Byte) : channelOf ch =
    if ch.toNat = 0 then .hr .ch0 else if ch.toNat = 1 then .hr .ch1 else if ch.toNat = 2 then .hr .ch2
    else if ch.toNat = 3 then .eightBit else .absent := by
  revert ch
  decide

end Sys2Proof.Machine
end

