-- ==== Sys2Proof/Laws/Mapper.lean ====
section
/-! SUPPORT. What SET_ANGLE's parts do: the free value it may take, the fields it may write, the bounds of its integers. -/

namespace Sys2Proof.Machine

/-- `hr_duty` changes nothing but the count of free values (R74, R75). -/
theorem hrDuty_state (k : Int) (s : State) : (hrDuty k s).2 = s ∨ (hrDuty k s).2 = s.nextDraw := by
  simp only [hrDuty]
  split
  · exact .inl rfl
  · split
    · exact .inl rfl
    · exact .inr rfl

/-- Under NORMALIZED `hr_duty` takes no free value (R74). -/
theorem hrDuty_normalized (k : Int) {s : State} (h : s.cfg.hrMap = .normalized) :
    hrDuty k s = (bits16 (normalizedDuty (timerTop s.cfg) k), s) := by
  simp [hrDuty, h]

/-- Under LITERAL a result that fits 16 bits is written as it is (R75). -/
theorem hrDuty_literal_inside {k : Int} {s : State} (h : s.cfg.hrMap = .literal)
    (hd : 0 ≤ literalDuty (timerTop s.cfg) k ∧ literalDuty (timerTop s.cfg) k ≤ 65535) :
    hrDuty k s = (bits16 (literalDuty (timerTop s.cfg) k), s) := by
  simp [hrDuty, h, hd]

/-- Under LITERAL any other result is a free value (R75). -/
theorem hrDuty_literal_outside {k : Int} {s : State} (h : s.cfg.hrMap = .literal)
    (hd : ¬(0 ≤ literalDuty (timerTop s.cfg) k ∧ literalDuty (timerTop s.cfg) k ≤ 65535)) :
    hrDuty k s = (Config.freeHalf s.draws, s.nextDraw) := by
  simp only [hrDuty, h]
  exact if_neg hd

/-- SET_ANGLE writes no buffer, not `RES`, not the configuration (R72, R78). -/
@[simp] theorem setChannel_res (c : Channel) (k : Int) (s : State) : (setChannel c k s).res = s.res := by
  cases c <;> simp only [setChannel, State.setHrCmp_res, State.setCmp3_res]
  rcases hrDuty_state k s with h | h <;> simp [h]

@[simp] theorem setChannel_cmd (c : Channel) (k : Int) (s : State) : (setChannel c k s).cmd = s.cmd := by
  cases c <;> simp only [setChannel, State.setHrCmp_cmd, State.setCmp3_cmd]
  rcases hrDuty_state k s with h | h <;> simp [h]

@[simp] theorem setChannel_rsp (c : Channel) (k : Int) (s : State) : (setChannel c k s).rsp = s.rsp := by
  cases c <;> simp only [setChannel, State.setHrCmp_rsp, State.setCmp3_rsp]
  rcases hrDuty_state k s with h | h <;> simp [h]

@[simp] theorem setChannel_cfg (c : Channel) (k : Int) (s : State) : (setChannel c k s).cfg = s.cfg := by
  cases c <;> simp only [setChannel, State.setHrCmp_cfg, State.setCmp3_cfg]
  rcases hrDuty_state k s with h | h <;> simp [h]

@[simp] theorem setChannel_pending (c : Channel) (k : Int) (s : State) : (setChannel c k s).pending = s.pending := by
  cases c <;> simp only [setChannel, State.setHrCmp_pending, State.setCmp3_pending]
  rcases hrDuty_state k s with h | h <;> simp [h]

/-- A rounded quotient over 65535 of a product with a factor in `0 .. 65535` is at most the other factor (R76). -/
theorem roundDiv_scaled_bounds (top : Nat) {u : Int} (h0 : 0 ≤ u) (h1 : u ≤ 65535) :
    0 ≤ roundDiv ((top : Int) * u) 65535 ∧ roundDiv ((top : Int) * u) 65535 ≤ top := by
  have hp : 0 ≤ (top : Int) * u := Int.mul_nonneg (Int.natCast_nonneg _) h0
  have hq : (top : Int) * u ≤ (top : Int) * 65535 := Int.mul_le_mul_of_nonneg_left h1 (Int.natCast_nonneg _)
  simp only [roundDiv, hp, if_true, floorDiv]
  omega

end Sys2Proof.Machine
end

