-- ==== Sys2Proof/Laws/Exec.lean ====
section
/-! SUPPORT. What a command and a step can do, once. -/

namespace Sys2Proof.Machine

/-- A read changes `RES` and, out of range, the count of free values. -/
theorem readToRes_cfg (b : Buffer) (a : Nat) (s : State) : (readToRes b a s).cfg = s.cfg := by
  by_cases h : a < frameCapacity
  · rw [readToRes_inside b s h]; rfl
  · rw [readToRes_outside b s h]; rfl

theorem readToRes_pending (b : Buffer) (a : Nat) (s : State) : (readToRes b a s).pending = s.pending := by
  by_cases h : a < frameCapacity
  · rw [readToRes_inside b s h]; rfl
  · rw [readToRes_outside b s h]; rfl

/-- No command touches the configuration or the host's stream (R16, R17, R18). -/
theorem exec_keeps_cfg_pending {i : Instr} {s t : State} (h : exec i s = .next t) :
    t.cfg = s.cfg ∧ t.pending = s.pending := by
  cases i with
  | setAngle ch p =>
    simp only [exec, execSetAngle] at h
    split at h <;> injection h with h <;> subst h <;> simp
  | respWrite off data =>
    simp only [exec, execRespWrite, memWriteRsp] at h
    split at h <;> injection h with h <;> subst h <;> simp
  | readCmd off =>
    injection h with h
    subst h
    exact ⟨readToRes_cfg _ _ _, readToRes_pending _ _ _⟩
  | respRead off =>
    injection h with h
    subst h
    exact ⟨readToRes_cfg _ _ _, readToRes_pending _ _ _⟩
  | nop | encode | decodeValue | pingCheck | readDuty | readTop =>
    injection h with h
    subst h
    exact ⟨rfl, rfl⟩

/-- What a step that answers a next state did: nothing, a reset, or one decoded command. -/
theorem step_cases {s t : State} (h : step s = .next t) :
    legalConfig s.cfg = true ∧
    ((s.pending = [] ∧ t = s) ∨
     (∃ rest, s.pending = .reset :: rest ∧ t = (s.setPending rest).applyReset) ∨
     (∃ w rest i, s.pending = .command w :: rest ∧ decode w = .command i ∧ exec i (s.setPending rest) = .next t)) := by
  simp only [step, runIfLegal] at h
  split at h
  case isFalse => cases h
  case isTrue hl =>
    refine ⟨hl, ?_⟩
    simp only [runNextInput] at h
    split at h
    · injection h with h
      exact .inl ⟨‹_›, h.symm⟩
    · rename_i input rest hp
      cases input with
      | reset =>
        simp only [runInput] at h
        injection h with h
        exact .inr (.inl ⟨rest, hp, h.symm⟩)
      | command w =>
        simp only [runInput, runWord] at h
        split at h
        · rename_i i hd
          exact .inr (.inr ⟨w, rest, i, hp, hd, h⟩)
        · cases h

end Sys2Proof.Machine
end

