-- ==== Sys2Proof/Laws/PerInstr.lean ====
section
/-! SUPPORT. What holds of every command as syntax, one lemma per constructor. -/

namespace Sys2Proof.Laws.IgnoredBitsZero

/-- The bits the command's format ignores (R43) are zero in its encoded word (R52). -/
def Statement (i : Instr) : Prop :=
  match formatOf i with
  | .f0 => field (encode i) 0 56 = 0#56
  | .fa => field (encode i) 0 48 = 0#48
  | .fad => field (encode i) 8 40 = 0#40
  | .fang => field (encode i) 32 16 = 0#16
  | .fenc => field (encode i) 16 16 = 0#16

theorem nop : Statement .nop := by simp only [Statement, formatOf]; decide

theorem encode (tool toolId function : Byte) (value : Int) : Statement (.encode tool toolId function value) := by
  simp [Statement, formatOf, field_encode, operandBits, field_or, field_place_above, field_place_below]

theorem decodeValue : Statement .decodeValue := by simp only [Statement, formatOf]; decide

theorem readCmd (off : Byte) : Statement (.readCmd off) := by
  simp [Statement, formatOf, field_encode, operandBits, field_place_above]

theorem respWrite (off data : Byte) : Statement (.respWrite off data) := by
  simp [Statement, formatOf, field_encode, operandBits, field_or, field_place_above, field_place_below]

theorem respRead (off : Byte) : Statement (.respRead off) := by
  simp [Statement, formatOf, field_encode, operandBits, field_place_above]

theorem pingCheck : Statement .pingCheck := by simp only [Statement, formatOf]; decide

theorem setAngle (ch : Byte) (angle : Pattern32) : Statement (.setAngle ch angle) := by
  simp [Statement, formatOf, field_encode, operandBits, field_or, field_place_above, field_place_below]

theorem readDuty (ch : Byte) : Statement (.readDuty ch) := by
  simp [Statement, formatOf, field_encode, operandBits, field_place_above]

theorem readTop : Statement .readTop := by simp only [Statement, formatOf]; decide

end Sys2Proof.Laws.IgnoredBitsZero
end

