-- ==== Sys2Proof/Laws/Run.lean ====
section
/-! SUPPORT. Several steps, unfolded once. -/

namespace Sys2Proof.Machine

/-- One more step of any machine. -/
theorem core_run_succ (M : Host.Core) (k : Nat) (s : M.State) : M.run (k + 1) s =
    match M.step s with
    | .next t => M.run k t
    | .fault r => .fault r
    | .refused r => .refused r := rfl

/-- A run of the block whose first step answers a next state. -/
theorem core_run_next {k : Nat} {s t : State} (h : step s = .next t) :
    Host.Core.run Sys2Proof.core (k + 1) s = Host.Core.run Sys2Proof.core k t := by
  have h' : Sys2Proof.core.step s = .next t := h
  refine (core_run_succ Sys2Proof.core k s).trans ?_
  rw [h']

end Sys2Proof.Machine
end

