-- ==== Sys2Proof/Tests/Slice0.lean ====
section
/-! SUPPORT. Tests: expected values are those of spec/95_test_vectors.md or worked by hand from the rules named; and a witness for the
hypotheses of each statement. -/

namespace Sys2Proof.Tests

open Sys2Proof.Machine Sys2Proof.Safety

/-- A field of the next state, where there is one. -/
def nextField {α : Type} (o : Host.Outcome State Fault Refusal) (f : State → α) : Option α :=
  match o with
  | .next t => some (f t)
  | .fault _ => none
  | .refused _ => none

/-- The name of a refusal, where there is one. -/
def refusalOf (o : Host.Outcome State Fault Refusal) : Option Refusal :=
  match o with
  | .refused r => some r
  | .next _ => none
  | .fault _ => none

/-- The bytes of a buffer, byte 0 first. -/
def bytesOf (m : Memory) : List Byte := (List.range 8).map (Memory.read m)

/-- The common settings of 95_test_vectors.md, with another `TIMER_TOP` and `HR_MAP`. -/
def settings (top : Nat) (m : HrMap) : Config :=
  { clockHz := top, prescaler := 1, pwmFreqHz := 1, hrMap := m, pingMarker := 0x50#8 }

/-- One step on a word from the reset state under the common settings. -/
def stepWord (w : Nat) : Host.Outcome State Fault Refusal := step (State.reset.withFetchWord 64 w)

/-! ### Well-formed commands (R45) -/

theorem test_illFormed_value_above : (Instr.encode 0x41#8 1#8 0x61#8 32768).wellFormed = false := by decide
theorem test_illFormed_value_below : (Instr.encode 0x41#8 1#8 0x61#8 (-32769)).wellFormed = false := by decide
theorem test_wellFormed_value_ends : (Instr.encode 0x41#8 1#8 0x61#8 32767).wellFormed = true ∧
    (Instr.encode 0x41#8 1#8 0x61#8 (-32768)).wellFormed = true := by decide

/-! ### Decoding, one word per command (95 sections 3, 4, 5) -/

theorem test_decode_nop : decode 0x00FFFFFFFFFFFFFF#64 = .command .nop := by decide
theorem test_decode_encode : decode 0x01410161FFFF8000#64 = .command (.encode 0x41#8 0x01#8 0x61#8 (-32768)) := by decide
theorem test_decode_decodeValue : decode 0x0200FFFFFFFFFFFF#64 = .command .decodeValue := by decide
theorem test_decode_readCmd : decode 0x0304FFFFFFFFFFFF#64 = .command (.readCmd 4#8) := by decide
theorem test_decode_respWrite : decode 0x0400FFFFFFFFFF50#64 = .command (.respWrite 0#8 0x50#8) := by decide
theorem test_decode_respRead : decode 0x0508000000000000#64 = .command (.respRead 8#8) := by decide
theorem test_decode_pingCheck : decode 0x0600000000000000#64 = .command .pingCheck := by decide
theorem test_decode_setAngle : decode 0x1001FFFF42B40000#64 = .command (.setAngle 1#8 0x42B40000#32) := by decide
theorem test_decode_readDuty : decode 0x11FF000000000000#64 = .command (.readDuty 0xFF#8) := by decide
theorem test_decode_readTop : decode 0x12FFFFFFFFFFFFFF#64 = .command .readTop := by decide
theorem test_decode_reserved : decode 0x0700000000000000#64 = .reservedOpcode 0x07#8 ∧
    decode 0x0F00000000000000#64 = .reservedOpcode 0x0F#8 ∧ decode 0x1300000000000000#64 = .reservedOpcode 0x13#8 ∧
    decode 0xFF00000000000000#64 = .reservedOpcode 0xFF#8 := by decide
theorem test_decodeTableWord : decodeTableWord 64 0x0302000000000000 = some (.readCmd 2#8) := by decide
theorem test_encode_words : encode (.encode 0x41#8 1#8 0x61#8 (-300)) = 0x014101610000FED4#64 ∧
    encode (.setAngle 3#8 0x43340000#32) = 0x1003000043340000#64 ∧ encode (.respWrite 7#8 0xFF#8) = 0x04070000000000FF#64 := by
  decide

/-! ### The frame codec (95 section 3) -/

theorem test_nop_keeps_everything : nextField (stepWord 0x0000000000000000) (fun t => t == State.reset) = some true := by decide
theorem test_encode_frame : nextField (stepWord 0x014102610000FED4) (fun t => bytesOf t.cmd) =
    some [0x41, 0x02, 0x61, 0xFE, 0xD4, 0x00, 0x00, 0x00] := by decide
theorem test_encode_no_carry_over :
    nextField (exec (.encode 0x52#8 3#8 0x61#8 0) (State.reset.setCmd (Memory.ofBytes (fun _ => 0xFF#8)))) (fun t => bytesOf t.cmd) =
      some [0x52, 0x03, 0x61, 0x00, 0x00, 0x00, 0x00, 0x00] := by decide
theorem test_decodeValue_big_endian :
    nextField (exec .decodeValue (State.reset.setCmd [(0, 0x41#8), (3, 0xFE#8), (4, 0xD4#8)])) (fun t => t.res) =
      some 0xFED4#16 := by decide
theorem test_readCmd_last_byte : nextField (exec (.readCmd 4#8) (State.reset.setCmd [(4, 0x5A#8)])) (fun t => t.res) =
    some 0x005A#16 := by decide
theorem test_readCmd_past_the_end : nextField (exec (.readCmd 8#8) State.reset) (fun t => (t.draws, t.res.extractLsb' 8 8)) =
    some (1, 0x00#8) := by
  have h : (zext16 (Config.freeByte 0)).extractLsb' 8 8 = 0x00#8 := by
    generalize Config.freeByte 0 = b
    revert b
    decide
  exact congrArg (fun x => some (1, x)) h
theorem test_respWrite_last_byte : nextField (stepWord 0x04070000000000FF) (fun t => (bytesOf t.rsp, t.res)) =
    some ([0, 0, 0, 0, 0, 0, 0, 0xFF], 0x0000#16) := by decide
theorem test_respWrite_past_the_end : nextField (stepWord 0x0408000000000077) (fun t => t == State.reset) = some true := by decide
theorem test_respRead_byte : nextField (exec (.respRead 2#8) (State.reset.setRsp [(2, 0x2D#8)])) (fun t => (t.res, t.rsp)) =
    some (0x002D#16, [(2, 0x2D#8)]) := by decide
theorem test_respRead_past_the_end : nextField (exec (.respRead 255#8) State.reset) (fun t => t.draws) = some 1 := by rfl
theorem test_pingCheck_marker_in_byte_zero :
    nextField (exec .pingCheck (State.reset.setRsp [(0, 0x50#8), (1, 0xFF#8)])) (fun t => t.res) = some 0x0001#16 := by decide
theorem test_pingCheck_marker_elsewhere :
    nextField (exec .pingCheck (State.reset.setRsp [(1, 0x50#8)])) (fun t => t.res) = some 0x0000#16 := by decide

/-! ### The mapper (95 sections 1, 2, 5) -/

theorem test_setAngle_wrong_angles_ignored :
    validAngle 0xBF800000#32 = none ∧ validAngle 0x80000001#32 = none ∧ validAngle 0x43340001#32 = none ∧
    validAngle 0x7F800000#32 = none ∧ validAngle 0xFF800000#32 = none ∧ validAngle 0x7FC00000#32 = none ∧
    validAngle 0x7F800001#32 = none ∧ (validAngle 0x80000000#32).isSome = true ∧ (validAngle 0x43340000#32).isSome = true := by
  decide
theorem test_setAngle_normalized : nextField (stepWord 0x1002000043330000) (fun t => (t.cmp0, t.cmp1, t.cmp2, t.cmp3)) =
    some (0x0000#16, 0x0000#16, 0x4DB1#16, 0x00#8) := by decide
theorem test_setAngle_smallest_subnormal :
    nextField (exec (.setAngle 0#8 0x00000001#32) (State.resetWith (settings 65535 .normalized))) (fun t => t.cmp0) =
      some 0x0001#16 := by decide
theorem test_setAngle_literal_in_range :
    nextField (exec (.setAngle 1#8 0x42B50000#32) (State.resetWith (settings 20000 .literal))) (fun t => (t.cmp1, t.draws)) =
      some (0x3774#16, 0) := by decide
theorem test_setAngle_literal_out_of_range :
    nextField (exec (.setAngle 2#8 0x43340000#32) (State.resetWith (settings 20000 .literal))) (fun t => (t.draws, t.cmp0, t.cmp1)) =
      some (1, 0x0000#16, 0x0000#16) := by decide
theorem test_literal_d : literalDuty 20000 0 = -2570039 ∧ literalDuty 20000 (180 * (unitsPerDegree : Int)) = 2569961 := by decide
theorem test_setAngle_channel_three : nextField (stepWord 0x1003000043338000) (fun t => (t.cmp3, t.cmp2)) =
    some (0xFE#8, 0x0000#16) := by decide
theorem test_setAngle_absent_channel : nextField (stepWord 0x1004000042340000) (fun t => t == State.reset) = some true := by decide
theorem test_readDuty_channel_three : nextField (exec (.readDuty 3#8) (State.reset.setCmp3 0xFF#8)) (fun t => t.res) =
    some 0x00FF#16 := by decide
theorem test_readDuty_absent_channel :
    nextField (exec (.readDuty 4#8) ((State.reset.setRes 0x1234#16).setHrCmp .ch0 0x5678#16)) (fun t => t.res) =
      some 0x0000#16 := by decide
theorem test_readTop : nextField (stepWord 0x1200000000000000) (fun t => t.res) = some 0x4E20#16 := by decide

/-! ### Configuration (95 section 6) and reset (95 section 7) -/

/-- `TIMER_TOP` of three inputs. -/
def topOf (clock prescaler freq : Nat) : Nat :=
  timerTop { clockHz := clock, prescaler := prescaler, pwmFreqHz := freq, hrMap := .normalized, pingMarker := 0#8 }

theorem test_timerTop_vectors : topOf 160000000 160 50 = 20000 ∧ topOf 170000000 1 50000 = 3400 ∧ topOf 16000000 8 50 = 40000 ∧
    topOf 1000 3 1 = 333 ∧ topOf 1000 1 2000 = 1 ∧ topOf 1000 1 3000 = 0 ∧ topOf 100000000 1 1000 = 100000 := by decide
theorem test_illegal_configuration_refused :
    refusalOf (step ((State.resetWith (settings 65536 .normalized)).withFetchWord 64 0)) = some .illegalConfiguration ∧
    refusalOf (State.instantiate (settings 0 .normalized)) = some .illegalConfiguration := by decide
theorem test_reserved_refused : refusalOf (stepWord 0x1300000000000000) = some (.reservedOpcode 0x13#8) := by decide
theorem test_reset_input_keeps_configuration :
    nextField (step { State.resetWith (settings 1 .literal) with pending := [.reset], cmp0 := 7#16, cmp3 := 9#8 })
      (fun t => (t.cmp0, t.cmp3, t.cfg == settings 1 .literal)) = some (0x0000#16, 0x00#8, true) := by decide
theorem test_no_input_no_change : nextField (step State.reset) (fun t => t == State.reset) = some true := by decide

/-! ### Witnesses: states and operands that meet the hypotheses of the statements -/

theorem test_witness_DecodeAndEncodeAgree :
    (Instr.encode 0#8 0#8 0#8 (-32768)).wellFormed = true ∧ decode 0x0302000000000000#64 = .command (.readCmd 2#8) := by decide
theorem test_witness_IgnoredBitsHaveNoEffect :
    decode 0x0302000000000000#64 = .command (.readCmd 2#8) ∧
    0x0302FFFFFFFFFFFF#64 &&& usedMask (formatOf (.readCmd 2#8)) = 0x0302000000000000#64 &&& usedMask (formatOf (.readCmd 2#8)) := by
  decide
theorem test_witness_OpcodeSelectsCommandAndOperands :
    (0x00FFFFFFFFFFFFFF#64).toNat / 2 ^ 56 = 0x00 ∧ (0x0100000000000000#64).toNat / 2 ^ 56 = 0x01 ∧
    (0x02FFFFFFFFFFFFFF#64).toNat / 2 ^ 56 = 0x02 ∧ (0x0300000000000000#64).toNat / 2 ^ 56 = 0x03 ∧
    (0x04FFFFFFFFFFFFFF#64).toNat / 2 ^ 56 = 0x04 ∧ (0x0500000000000000#64).toNat / 2 ^ 56 = 0x05 ∧
    (0x06FFFFFFFFFFFFFF#64).toNat / 2 ^ 56 = 0x06 ∧ (0x1000000000000000#64).toNat / 2 ^ 56 = 0x10 ∧
    (0x11FFFFFFFFFFFFFF#64).toNat / 2 ^ 56 = 0x11 ∧ (0x1200000000000000#64).toNat / 2 ^ 56 = 0x12 := by decide
theorem test_witness_ReservedOpcodesAreRefused :
    (0x07FFFFFFFFFFFFFF#64).toNat / 2 ^ 56 = 0x07 ∧ (0x0F00000000000000#64).toNat / 2 ^ 56 = 0x0F ∧
    (0x1300000000000000#64).toNat / 2 ^ 56 = 0x13 ∧ (0xFFFFFFFFFFFFFFFF#64).toNat / 2 ^ 56 = 0xFF := by decide
theorem test_witness_StepRunsTheIssuedCommand :
    legalConfig State.reset.cfg = true ∧
    (State.reset.withFetchWord 64 0x0502000000000000).pending = .command 0x0502000000000000#64 :: [] ∧
    decode 0x0502000000000000#64 = .command (.respRead 2#8) ∧ (Instr.respRead 2#8).wellFormed = true ∧
    decode 0x1300000000000000#64 = .reservedOpcode 0x13#8 := by decide
theorem test_witness_CommandsRunInTheOrderIssued :
    legalConfig State.reset.cfg = true ∧ ∀ i ∈ [Instr.encode 1#8 2#8 3#8 32767, .decodeValue], i.wellFormed = true := by decide
theorem test_witness_AppliedResetKeepsTheConfiguration :
    legalConfig State.reset.cfg = true ∧ ({ State.reset with pending := [.reset] } : State).pending = .reset :: [] := by decide
theorem test_witness_ResetStateIsThatOfAngleZero :
    legalConfig (settings 1 .normalized) = true ∧ (settings 1 .normalized).hrMap = .normalized ∧
    legalConfig (settings 65535 .literal) = true ∧ (settings 65535 .literal).hrMap = .literal := by decide
theorem test_witness_TimerTopIsTheRoundedQuotient :
    0 < Config.illustrative.clockHz ∧ 0 < Config.illustrative.prescaler ∧ 0 < Config.illustrative.pwmFreqHz := by decide
theorem test_witness_IllegalConfigurationsAreRefused :
    ¬(0 < (settings 0 .normalized).clockHz) ∧
    ¬(roundQ (((settings 65536 .normalized).clockHz : ℚ) /
      (((settings 65536 .normalized).prescaler : ℚ) * ((settings 65536 .normalized).pwmFreqHz : ℚ))) ≤ 65535) ∧
    (0 < (settings 65535 .normalized).clockHz ∧
      1 ≤ roundQ (((settings 65535 .normalized).clockHz : ℚ) /
        (((settings 65535 .normalized).prescaler : ℚ) * ((settings 65535 .normalized).pwmFreqHz : ℚ))) ∧
      roundQ (((settings 65535 .normalized).clockHz : ℚ) /
        (((settings 65535 .normalized).prescaler : ℚ) * ((settings 65535 .normalized).pwmFreqHz : ℚ))) ≤ 65535) := by
  norm_num [settings, roundQ]
theorem test_witness_StepsAnswerNext : ∃ t, step (State.reset.withFetchWord 64 0x1200000000000000) = .next t := ⟨_, rfl⟩
theorem test_witness_EncodedValueIsRecovered :
    (-32768 : ℤ) ≤ -32768 ∧ (32767 : ℤ) ≤ 32767 ∧ ∀ a b c v, Instr.encode a b c v ∉ [Instr.nop, .respWrite 0#8 1#8] := by simp
theorem test_witness_buffer_offsets : (7#8 : Byte).toNat < 8 ∧ 8 ≤ (8#8 : Byte).toNat := by decide
theorem test_witness_PingCheckComparesByteZero :
    Memory.read (State.reset.setRsp [(0, 0x50#8)]).rsp 0 = (State.reset.setRsp [(0, 0x50#8)]).cfg.pingMarker ∧
    Memory.read State.reset.rsp 0 ≠ State.reset.cfg.pingMarker := by decide
theorem test_witness_PatternsHaveTheirExactValue :
    (expField 0x7FC00000#32 = 255 ∧ fracField 0x7FC00000#32 ≠ 0) ∧
    (expField 0x7F800000#32 = 255 ∧ fracField 0x7F800000#32 = 0 ∧ signBit 0x7F800000#32 = 0) ∧
    (expField 0xFF800000#32 = 255 ∧ fracField 0xFF800000#32 = 0 ∧ signBit 0xFF800000#32 = 1) ∧
    expField 0x7F7FFFFF#32 ≠ 255 ∧ expField 0x00000001#32 ≠ 255 := by decide
theorem test_witness_SetAngleWritesTheRuledDuty : acceptsAngle 0x43340000#32 ∧ ¬acceptsAngle 0x43340001#32 := by
  norm_num [acceptsAngle, finiteValue, expField, fracField, signBit]
theorem test_witness_valid_units :
    (0 : ℤ) ≤ 180 * (unitsPerDegree : ℤ) ∧ (0 : ℤ) < 180 * (unitsPerDegree : ℤ) := by decide
theorem test_witness_NormalizedDutyIsBoundedAndMonotone :
    legalConfig (settings 1 .normalized) = true ∧ legalConfig (settings 65535 .normalized) = true ∧
    timerTop (settings 65535 .normalized) = 65535 := by decide
theorem test_witness_WorkedAnglesGiveTheirDuties :
    legalConfig State.reset.cfg = true ∧ State.reset.cfg.hrMap = .normalized ∧ timerTop State.reset.cfg = 20000 := by decide
theorem test_witness_LiteralMappingFitsOnlyNearNinetyDegrees :
    (State.resetWith (settings 20000 .literal)).cfg.hrMap = .literal ∧
    timerTop (State.resetWith (settings 20000 .literal)).cfg = 20000 ∧ validAngle 0x00000000#32 = some 0 ∧ hrRaw 0 < 0 ∧
    validAngle 0x42B90000#32 = some (185 * 2 ^ 148) ∧ 835 < hrRaw (185 * 2 ^ 148) := by decide
theorem test_witness_ReadDutyReadsTheChannel :
    (0#8 : Byte).toNat = 0 ∧ (1#8 : Byte).toNat = 1 ∧ (2#8 : Byte).toNat = 2 ∧ (3#8 : Byte).toNat = 3 ∧ 4 ≤ (4#8 : Byte).toNat ∧
    4 ≤ (255#8 : Byte).toNat := by decide
theorem test_witness_CommandsKeepToTheAccessMatrix :
    (∃ t, exec (.readCmd 7#8) State.reset = .next t) ∧ Cell.cmd 7 ∉ writeCells (.readCmd 7#8) ∧
    (∀ c ∈ readCells (.readCmd 7#8), cellValue c State.reset = cellValue c (State.reset.setRsp [(0, 1#8)])) ∧
    Cell.res ∈ writeCells (.readCmd 7#8) := ⟨⟨_, rfl⟩, by decide, by decide, by decide⟩
theorem test_witness_OnlyTheNamedCommandsChangeEachRegister :
    nextField (stepWord 0x0141016100000001) (fun t => t.cmd != State.reset.cmd) = some true ∧
    nextField (stepWord 0x0407000000000001) (fun t => t.rsp != State.reset.rsp) = some true ∧
    nextField (stepWord 0x1000000042B40000) (fun t => t.cmp0 != State.reset.cmp0) = some true ∧
    nextField (stepWord 0x1001000042B40000) (fun t => t.cmp1 != State.reset.cmp1) = some true ∧
    nextField (stepWord 0x1002000042B40000) (fun t => t.cmp2 != State.reset.cmp2) = some true ∧
    nextField (stepWord 0x1003000042B40000) (fun t => t.cmp3 != State.reset.cmp3) = some true ∧
    nextField (stepWord 0x1200000000000000) (fun t => t.res != State.reset.res) = some true := by decide
theorem test_witness_read_commands : Cell.res ∈ writeCells .readTop ∧ Cell.res ∈ writeCells (.readCmd 255#8) := by decide
theorem test_witness_RepeatingACommandChangesNothingMore :
    ∃ t, exec (.setAngle 0#8 0x42B40000#32) State.reset = .next t ∧ t.draws = State.reset.draws ∧
      State.reset.cfg.hrMap = .normalized := ⟨_, rfl, rfl, rfl⟩
theorem test_witness_StepsKeepTheInvariant :
    Inv ((State.reset.setHrCmp .ch1 20000#16).withFetchWord 64 0x0400000000000006) ∧
    ∃ t, step ((State.reset.setHrCmp .ch1 20000#16).withFetchWord 64 0x0400000000000006) = .next t :=
  ⟨⟨rfl, rfl, by decide, ⟨rfl, rfl, rfl⟩, fun _ => by decide⟩, ⟨_, rfl⟩⟩

end Sys2Proof.Tests
end

section
/-! SUPPORT. What a step does with the host's next input, and O7. -/

namespace Sys2Proof.Machine

/-- Where the configuration is legal, a step is the host's next input carried out on the rest of its stream (R5, R71). -/
theorem step_of_pending_cons {s : State} {input : HostInput} {rest : List HostInput} (hl : legalConfig s.cfg = true)
    (hp : s.pending = input :: rest) : step s = runInput input (s.setPending rest) := by
  simp only [step, runIfLegal, hl, if_true, runNextInput, hp]

/-- A word that decodes to a command runs as that command (R5). -/
theorem runWord_of_command {w : CommandWord} {i : Instr} (hd : decode w = .command i) (s : State) :
    runWord w s = exec i s := by
  simp only [runWord, hd]

/-- A word with a reserved opcode is refused in every state (R49). -/
theorem runWord_of_reservedOpcode {w : CommandWord} {op : Byte} (hd : decode w = .reservedOpcode op) (s : State) :
    runWord w s = .refused (.reservedOpcode op) := by
  simp only [runWord, hd]

/-- Settles O7: the step is `runWord` of the issued word, which the decoder's two answers determine. -/
theorem stepRunsTheIssuedCommand : Obligations.StepRunsTheIssuedCommand := by
  intro s w rest hl hp
  have hstep : step s = runWord w (s.setPending rest) := step_of_pending_cons hl hp
  constructor
  · intro i hd _
    exact hstep.trans (runWord_of_command hd _)
  · intro op hd
    exact hstep.trans (runWord_of_reservedOpcode hd _)

end Sys2Proof.Machine
end

section
/-! SUPPORT. What a command does to the state, by the kind of its effect, and to each register. -/

namespace Sys2Proof.Machine

open Sys2Proof.Safety

/-- `CommandEffect s i t`: the ways the command `i` can take the state `s` to `t` (R21), one per kind of register written. -/
inductive CommandEffect (s : State) : Instr → State → Prop where
  /-- Nothing is written: NOP, a write past the buffer's end (R26), an ignored angle (R72), an absent channel (R50). -/
  | unchanged (i : Instr) : CommandEffect s i s
  /-- `RES` is written, after at most one free value has been taken (R11, R24). -/
  | result {i : Instr} (hi : Cell.res ∈ writeCells i) (v : Half) {n : Nat} (hn : n = s.draws ∨ n = s.draws + 1) :
      CommandEffect s i { s with res := v, draws := n }
  /-- The command frame is replaced whole (R12, R56). -/
  | frame (tool toolId function : Byte) (value : Int) : CommandEffect s (.encode tool toolId function value)
      (s.setCmd (Memory.ofBytes (commandFrame tool toolId function (bits16 value))))
  /-- One byte of the response frame is written (R13, R61). -/
  | response {off : Byte} (hoff : off.toNat < 8) (data : Byte) : CommandEffect s (.respWrite off data)
      (s.setRsp (Memory.write s.rsp off.toNat data))
  /-- A high-resolution duty is written, after at most one free value has been taken (R14, R72, R75). -/
  | duty {ch : Byte} {p : Pattern32} {k : Int} {c : HrChannel} (hp : validAngle p = some k) (hc : channelOf ch = .hr c)
      {n : Nat} (hn : n = s.draws ∨ n = s.draws + 1) :
      CommandEffect s (.setAngle ch p) (State.setHrCmp { s with draws := n } c (hrDuty k s).1)
  /-- The 8-bit duty is written (R14, R77). -/
  | duty8 {ch : Byte} {p : Pattern32} {k : Int} (hp : validAngle p = some k) (hc : channelOf ch = .eightBit) :
      CommandEffect s (.setAngle ch p) (s.setCmp3 (BitVec.ofInt 8 (duty8 k)))

/-- A buffer read into `RES`, as an effect of a command whose row writes `RES`. -/
theorem readToRes_effect {i : Instr} (hi : Cell.res ∈ writeCells i) (b : Buffer) (a : Nat) (s : State) :
    CommandEffect s i (readToRes b a s) := by
  by_cases h : a < frameCapacity
  · rw [readToRes_inside b s h]
    exact .result hi _ (.inl rfl)
  · rw [readToRes_outside b s h]
    exact .result hi _ (.inr rfl)

/-- A valid angle on any channel. -/
theorem setChannel_effect {ch : Byte} {p : Pattern32} {k : Int} (hp : validAngle p = some k) (s : State) :
    CommandEffect s (.setAngle ch p) (setChannel (channelOf ch) k s) := by
  cases hc : channelOf ch with
  | hr c =>
    simp only [setChannel]
    rcases hrDuty_state k s with h | h <;> rw [h]
    · exact .duty hp hc (.inl rfl)
    · exact .duty hp hc (.inr rfl)
  | eightBit => exact .duty8 hp hc
  | absent => exact .unchanged _

/-- Every command has one of these effects. -/
theorem exec_effect {i : Instr} {s t : State} (h : exec i s = .next t) : CommandEffect s i t := by
  cases i with
  | nop =>
    cases h
    exact .unchanged _
  | encode tool toolId function value =>
    cases h
    exact .frame tool toolId function value
  | decodeValue | pingCheck | readDuty | readTop =>
    cases h
    exact .result (List.mem_singleton_self _) _ (.inl rfl)
  | readCmd | respRead =>
    cases h
    exact readToRes_effect (List.mem_singleton_self _) _ _ s
  | respWrite off data =>
    cases h
    by_cases hoff : off.toNat < frameCapacity
    · rw [memWriteRsp_inside data s hoff]
      exact .response hoff data
    · rw [memWriteRsp_outside data s hoff]
      exact .unchanged _
  | setAngle ch p =>
    simp only [exec, execSetAngle] at h
    split at h
    · cases h
      exact .unchanged _
    · rename_i k hp
      cases h
      exact setChannel_effect hp s

section
variable {i : Instr} {s t : State} (h : CommandEffect s i t)
include h

/-- R11: `RES` is written only by a command whose row of R21 writes it. -/
theorem CommandEffect.res_eq_or : t.res = s.res ∨ Cell.res ∈ writeCells i := by
  cases h with
  | result hi => exact .inr hi
  | duty => exact .inl (by simp)
  | unchanged | frame | response | duty8 => exact .inl rfl

/-- R12: `CMD` is written only by ENCODE, with the frame of R55. -/
theorem CommandEffect.cmd_eq_or : t.cmd = s.cmd ∨ ∃ tool toolId function value,
    i = .encode tool toolId function value ∧
      t.cmd = Memory.ofBytes (commandFrame tool toolId function (bits16 value)) := by
  cases h with
  | frame tool toolId function value => exact .inr ⟨tool, toolId, function, value, rfl, rfl⟩
  | duty => exact .inl (by simp)
  | unchanged | result | response | duty8 => exact .inl rfl

/-- R13: `RSP` is written only by RESP_WRITE at an offset of the buffer. -/
theorem CommandEffect.rsp_eq_or : t.rsp = s.rsp ∨ ∃ off data,
    i = .respWrite off data ∧ off.toNat < 8 ∧ t.rsp = Memory.write s.rsp off.toNat data := by
  cases h with
  | response hoff data => exact .inr ⟨_, data, rfl, hoff, rfl⟩
  | duty => exact .inl (by simp)
  | unchanged | result | frame | duty8 => exact .inl rfl

/-- R14: a high-resolution compare register is written only by SET_ANGLE of its channel with a valid angle. -/
theorem CommandEffect.hrCmp_eq_or (c : HrChannel) : t.hrCmp c = s.hrCmp c ∨ ∃ ch p k,
    i = .setAngle ch p ∧ channelOf ch = .hr c ∧ validAngle p = some k ∧ t.hrCmp c = (hrDuty k s).1 := by
  cases h with
  | @duty ch p k d hp hc =>
    by_cases hd : c = d
    · subst hd
      exact .inr ⟨ch, p, k, rfl, hc, hp, by simp⟩
    · exact .inl ((State.hrCmp_setHrCmp _ d c _).trans (if_neg hd))
  | unchanged | result | frame | response | duty8 => exact .inl (by cases c <;> rfl)

/-- R14: `CMP[3]` is written only by SET_ANGLE of channel 3 with a valid angle. -/
theorem CommandEffect.cmp3_eq_or : t.cmp3 = s.cmp3 ∨ ∃ ch p k,
    i = .setAngle ch p ∧ channelOf ch = .eightBit ∧ validAngle p = some k := by
  cases h with
  | @duty8 ch p k hp hc => exact .inr ⟨ch, p, k, rfl, hc, hp⟩
  | duty => exact .inl (by simp)
  | unchanged | result | frame | response => exact .inl rfl

end

end Sys2Proof.Machine
end

section
/-! SUPPORT. The invariant of the block: at reset, and along every step (O36, O37). -/

namespace Sys2Proof.Safety

open Sys2Proof.Machine

/-- A quotient between two whole numbers on either side of zero stays between them when truncated (R3). -/
theorem truncDiv_mem_Icc {n : Int} {d a b : Nat} (hd : 0 < d) (ha : -(a * d : Int) ≤ n) (hb : n ≤ b * d) :
    truncDiv n d ∈ Set.Icc (-(a : Int)) b := by
  have hd' : (0 : Int) < d := Int.natCast_pos.mpr hd
  simp only [truncDiv, floorDiv]
  split
  case isTrue hn =>
    have hnonneg : 0 ≤ n / (d : Int) := Int.ediv_nonneg hn hd'.le
    exact ⟨by omega, Int.ediv_le_of_le_mul hd' hb⟩
  case isFalse hn =>
    have hnonneg : 0 ≤ -n / (d : Int) := Int.ediv_nonneg (by omega) hd'.le
    have hle : -n / (d : Int) ≤ a := Int.ediv_le_of_le_mul hd' (by omega)
    exact ⟨by omega, by omega⟩

/-- R73: for a valid angle `raw` lies in the range of `s16`. -/
theorem hrRaw_mem_Icc {k : Int} (h0 : 0 ≤ k) (h1 : k ≤ 180 * (unitsPerDegree : Int)) :
    hrRaw k ∈ Set.Icc (-32768) 32767 := by
  have hpos : 0 < 180 * unitsPerDegree := by decide
  exact truncDiv_mem_Icc (a := 32768) (b := 32767) hpos (by push_cast; omega) (by push_cast; omega)

/-- What a valid angle is in units (R72). -/
theorem validAngle_bounds {p : Pattern32} {k : Int} (h : validAngle p = some k) :
    f32val p = .finite k ∧ 0 ≤ k ∧ k ≤ 180 * (unitsPerDegree : Int) := by
  simp only [validAngle] at h
  split at h
  · rename_i k' hk'
    split at h
    · rename_i hb
      cases h
      exact ⟨hk', hb⟩
    · cases h
  all_goals cases h

/-- `bits_16` of a number in `0 .. n` is at most `n`. -/
theorem bits16_toNat_le {x : Int} {n : Nat} (h0 : 0 ≤ x) (h1 : x ≤ n) : (bits16 x).toNat ≤ n := by
  simp only [bits16, BitVec.toNat_ofInt]
  omega

/-- R76: under NORMALIZED the duty of a valid angle is at most `TIMER_TOP`. -/
theorem hrDuty_normalized_le_top {p : Pattern32} {k : Int} {s : State} (hp : validAngle p = some k)
    (hn : s.cfg.hrMap = .normalized) : (hrDuty k s).1.toNat ≤ timerTop s.cfg := by
  obtain ⟨-, h0, h1⟩ := validAngle_bounds hp
  obtain ⟨hlo, hhi⟩ := hrRaw_mem_Icc h0 h1
  obtain ⟨hd0, hd1⟩ := roundDiv_scaled_bounds (timerTop s.cfg) (u := hrRaw k + 32768) (by omega) (by omega)
  rw [hrDuty_normalized k hn]
  exact bits16_toNat_le hd0 hd1

/-- The bound of R14 and R76, channel by channel. -/
theorem dutiesWithinTop_iff (s : State) : dutiesWithinTop s ↔
    (s.cfg.hrMap = .normalized → ∀ c, (s.hrCmp c).toNat ≤ timerTop s.cfg) := by
  refine imp_congr_right fun _ => ⟨fun ⟨h0, h1, h2⟩ c => ?_, fun h => ⟨h .ch0, h .ch1, h .ch2⟩⟩
  cases c
  · exact h0
  · exact h1
  · exact h2

/-- The reset state of a legal configuration meets the invariant. -/
theorem inv_resetWith {c : Config} (hc : legalConfig c = true) : Inv (State.resetWith c) :=
  ⟨(State.resetWith_wf c).1, (State.resetWith_wf c).2, hc, ⟨rfl, rfl, rfl⟩,
    fun _ => ⟨Nat.zero_le _, Nat.zero_le _, Nat.zero_le _⟩⟩

/-- Every command keeps the invariant. -/
theorem exec_keeps_inv {i : Instr} {s t : State} (h : exec i s = .next t) (hs : Inv s) : Inv t := by
  obtain ⟨hcmd, hrsp, hlegal, htail, hduties⟩ := hs
  obtain ⟨hcfg, -⟩ := exec_keeps_cfg_pending h
  have he := exec_effect h
  have hframe : Memory.wf t.cmd = true ∧ frameTailZero t := by
    rcases he.cmd_eq_or with hc | ⟨_, _, _, _, -, hc⟩
    · simpa only [frameTailZero, hc] using And.intro hcmd htail
    · simp [frameTailZero, hc, commandFrame]
  have hresponse : Memory.wf t.rsp = true := by
    rcases he.rsp_eq_or with hr | ⟨_, _, -, -, hr⟩
    · rwa [hr]
    · simp [hr]
  have hcompare : dutiesWithinTop t := by
    rw [dutiesWithinTop_iff] at hduties ⊢
    rw [hcfg]
    intro hn c
    rcases he.hrCmp_eq_or c with hr | ⟨_, _, k, -, -, hp, hr⟩
    · rw [hr]
      exact hduties hn c
    · rw [hr]
      exact hrDuty_normalized_le_top hp hn
  exact ⟨hframe.1, hresponse, hcfg ▸ hlegal, hframe.2, hcompare⟩

/-- Settles O36: a reset leads to the reset state of the same configuration, and a command keeps each part of the invariant. -/
theorem stepsKeepTheInvariant : Obligations.StepsKeepTheInvariant := by
  intro s t hs h
  obtain ⟨hlegal, ⟨-, rfl⟩ | ⟨rest, -, rfl⟩ | ⟨w, rest, i, -, -, hexec⟩⟩ := step_cases h
  · exact hs
  · exact inv_resetWith hlegal
  · exact exec_keeps_inv hexec hs

/-- Settles O37: the reset state of every legal configuration, and the illustrative one is legal. -/
theorem resetMeetsTheInvariant : Obligations.ResetMeetsTheInvariant :=
  ⟨fun _ hc => inv_resetWith hc, inv_resetWith (by decide)⟩

/-- Settles O14: a reset keeps the configuration (R121), and no command writes it (R16, R17). -/
theorem stepsKeepTheConfiguration : Obligations.StepsKeepTheConfiguration := by
  intro s t h
  obtain ⟨-, ⟨-, rfl⟩ | ⟨rest, -, rfl⟩ | ⟨w, rest, i, -, -, hexec⟩⟩ := step_cases h
  · rfl
  · rfl
  · exact (exec_keeps_cfg_pending hexec).1

/-- Settles O9: the reset state lists no byte of either buffer, and an unlisted byte reads as zero (R20). -/
theorem resetLeavesEveryRegisterZero : Obligations.ResetLeavesEveryRegisterZero := by
  intro c
  have hread (a : Nat) : Memory.read [] a = 0x00#8 := rfl
  exact ⟨rfl, fun a _ => ⟨hread a, hread a⟩, rfl, rfl, rfl, rfl⟩

end Sys2Proof.Safety
end

section
/-! SUPPORT. The cells of the access matrix, and that each command keeps to its row (O33). -/

namespace Sys2Proof.Safety

open Sys2Proof.Machine

/-- The number of a high-resolution channel, as a register index. -/
def hrIndex : HrChannel → Fin 4
  | .ch0 => 0
  | .ch1 => 1
  | .ch2 => 2

/-- The cells SET_ANGLE of a channel writes and READ_DUTY of it reads. -/
def registerCells : Channel → List Cell
  | .hr c => [.cmp (hrIndex c)]
  | .eightBit => [.cmp 3]
  | .absent => []

/-- The matrix names channels by number, the model by `channelOf` (R46, R72). -/
theorem channelCells_eq (ch : Byte) : channelCells ch = registerCells (channelOf ch) := by
  revert ch
  decide

/-- The row of a SET_ANGLE that is not ignored. -/
theorem writeCells_setAngle {p : Pattern32} {k : Int} (hp : validAngle p = some k) (ch : Byte) :
    writeCells (.setAngle ch p) = registerCells (channelOf ch) := by
  simp [writeCells, hp, channelCells_eq]

/-- An offset below eight names its cell. -/
theorem offsetCells_of_lt (mk : Fin 8 → Cell) {off : Byte} (h : off.toNat < 8) : offsetCells mk off = [mk ⟨off.toNat, h⟩] :=
  dif_pos h

@[simp] theorem cellValue_hrIndex (c : HrChannel) (s : State) : cellValue (.cmp (hrIndex c)) s = (s.hrCmp c).toNat := by
  cases c <;> rfl

/-- Every register index is that of a high-resolution channel, or 3. -/
theorem eq_hrIndex_or_three (ch : Fin 4) : (∃ c, ch = hrIndex c) ∨ ch = 3 := by
  fin_cases ch
  · exact .inl ⟨.ch0, rfl⟩
  · exact .inl ⟨.ch1, rfl⟩
  · exact .inl ⟨.ch2, rfl⟩
  · exact .inr rfl

/-! ### Cells outside the row -/

/-- A cell holds what it held unless the command's row writes it. -/
theorem cellValue_of_notMem_writeCells {i : Instr} {s t : State} {c : Cell} (h : exec i s = .next t) (hc : c ∉ writeCells i) :
    cellValue c t = cellValue c s := by
  obtain ⟨hcfg, -⟩ := exec_keeps_cfg_pending h
  have he := exec_effect h
  cases c with
  | res => exact congrArg BitVec.toNat (he.res_eq_or.resolve_right hc)
  | cmd off =>
    rcases he.cmd_eq_or with hcmd | ⟨_, _, _, _, rfl, -⟩
    · simp only [cellValue, hcmd]
    · exact absurd (by fin_cases off <;> simp [writeCells]) hc
  | rsp off =>
    rcases he.rsp_eq_or with hrsp | ⟨off', data, rfl, hoff, hrsp⟩
    · simp only [cellValue, hrsp]
    · have hne : (off : Nat) ≠ off'.toNat := by
        intro heq
        exact hc (by simp [writeCells, offsetCells_of_lt _ hoff, Fin.ext_iff, heq])
      simp [cellValue, hrsp, hne]
  | cmp ch =>
    obtain ⟨d, rfl⟩ | rfl := eq_hrIndex_or_three ch
    · rcases he.hrCmp_eq_or d with hd | ⟨ch, p, k, rfl, hch, hp, -⟩
      · simp only [cellValue_hrIndex, hd]
      · exact absurd (by simp [writeCells_setAngle hp, hch, registerCells]) hc
    · rcases he.cmp3_eq_or with hd | ⟨ch, p, k, rfl, hch, hp⟩
      · exact congrArg BitVec.toNat hd
      · exact absurd (by simp [writeCells_setAngle hp, hch, registerCells]) hc
  | timerTop | hrMap | pingMarker => simp only [cellValue, hcfg]

/-! ### What the cells of the row are computed from -/

section
variable {s s' : State}

/-- The two mappings have different numbers. -/
theorem hrMap_eq_of_cellValue_eq (h : cellValue .hrMap s = cellValue .hrMap s') : s.cfg.hrMap = s'.cfg.hrMap := by
  simp only [cellValue] at h
  cases hm : s.cfg.hrMap <;> cases hm' : s'.cfg.hrMap <;> simp [hm, hm'] at h ⊢

/-- What a read puts in `RES` depends on the byte at an offset below eight, and else on the count of free values (R23, R24). -/
theorem readToRes_res_congr {b : Buffer} {a : Nat} (hdraws : s.draws = s'.draws)
    (hbyte : a < 8 → Memory.read (s.buffer b) a = Memory.read (s'.buffer b) a) :
    (readToRes b a s).res = (readToRes b a s').res := by
  by_cases h : a < frameCapacity
  · simp [readToRes_inside b _ h, hbyte h]
  · simp [readToRes_outside b _ h, hdraws]

/-- The same of a read whose cells the two states agree on. -/
theorem readToRes_res_congr_cells {b : Buffer} {mk : Fin 8 → Cell} {off : Byte} (hdraws : s.draws = s'.draws)
    (hmk : ∀ (a : Fin 8) (u : State), cellValue (mk a) u = (Memory.read (u.buffer b) a).toNat)
    (hcells : ∀ c ∈ offsetCells mk off, cellValue c s = cellValue c s') :
    (readToRes b off.toNat s).res = (readToRes b off.toNat s').res := by
  refine readToRes_res_congr hdraws fun h => BitVec.eq_of_toNat_eq ?_
  have hcell := hcells (mk ⟨off.toNat, h⟩) (by simp [offsetCells_of_lt mk h])
  simpa only [hmk] using hcell

/-- What READ_DUTY reads depends on the channel's register (R79). -/
theorem dutyOf_congr {c : Channel} (h : ∀ x ∈ registerCells c, cellValue x s = cellValue x s') :
    dutyOf c s = dutyOf c s' := by
  cases c with
  | hr d =>
    have hd := h (.cmp (hrIndex d)) (List.mem_singleton_self _)
    simp only [cellValue_hrIndex] at hd
    exact BitVec.eq_of_toNat_eq hd
  | eightBit => exact congrArg zext16 (BitVec.eq_of_toNat_eq (h (.cmp 3) (List.mem_singleton_self _)))
  | absent => rfl

/-- The duty depends on `TIMER_TOP`, `HR_MAP` and the count of free values (R74, R75). -/
theorem hrDuty_fst_congr (k : Int) (hdraws : s.draws = s'.draws) (htop : timerTop s.cfg = timerTop s'.cfg)
    (hmap : s.cfg.hrMap = s'.cfg.hrMap) : (hrDuty k s).1 = (hrDuty k s').1 := by
  simp only [hrDuty, ← hdraws, ← htop, ← hmap]
  split
  · rfl
  · split <;> rfl

/-- The register SET_ANGLE writes holds a value computed from the same (R72). -/
theorem cellValue_setChannel_congr {c : Channel} {x : Cell} (k : Int) (hx : x ∈ registerCells c) (hdraws : s.draws = s'.draws)
    (htop : timerTop s.cfg = timerTop s'.cfg) (hmap : s.cfg.hrMap = s'.cfg.hrMap) :
    cellValue x (setChannel c k s) = cellValue x (setChannel c k s') := by
  cases c with
  | hr d =>
    obtain rfl := List.mem_singleton.mp hx
    simp [setChannel, hrDuty_fst_congr k hdraws htop hmap]
  | eightBit =>
    obtain rfl := List.mem_singleton.mp hx
    rfl
  | absent => cases hx

end

/-- A cell of the command's row gets a value computed from the cells its row reads, and the count of free values. -/
theorem cellValue_congr_of_mem_writeCells {i : Instr} {s s' t t' : State} {c : Cell} (h : exec i s = .next t)
    (h' : exec i s' = .next t') (hdraws : s.draws = s'.draws) (hreads : ∀ x ∈ readCells i, cellValue x s = cellValue x s')
    (hc : c ∈ writeCells i) : cellValue c t = cellValue c t' := by
  cases i with
  | nop => cases hc
  | encode tool toolId function value =>
    cases h
    cases h'
    simp only [writeCells, List.mem_cons, List.not_mem_nil, or_false] at hc
    rcases hc with rfl | rfl | rfl | rfl | rfl | rfl | rfl | rfl <;> rfl
  | decodeValue =>
    cases h
    cases h'
    obtain rfl := List.mem_singleton.mp hc
    have h3 : Memory.read s.cmd 3 = Memory.read s'.cmd 3 := BitVec.eq_of_toNat_eq (hreads (.cmd 3) (by simp [readCells]))
    have h4 : Memory.read s.cmd 4 = Memory.read s'.cmd 4 := BitVec.eq_of_toNat_eq (hreads (.cmd 4) (by simp [readCells]))
    simp [cellValue, memRead, State.buffer, h3, h4]
  | readCmd off =>
    cases h
    cases h'
    obtain rfl := List.mem_singleton.mp hc
    exact congrArg BitVec.toNat (readToRes_res_congr_cells (b := .cmd) hdraws (fun _ _ => rfl) hreads)
  | respRead off =>
    cases h
    cases h'
    obtain rfl := List.mem_singleton.mp hc
    exact congrArg BitVec.toNat (readToRes_res_congr_cells (b := .rsp) hdraws (fun _ _ => rfl) hreads)
  | respWrite off data =>
    cases h
    cases h'
    by_cases hoff : off.toNat < 8
    · obtain rfl : c = .rsp ⟨off.toNat, hoff⟩ := by simpa [writeCells, offsetCells_of_lt _ hoff] using hc
      simp [cellValue, memWriteRsp_inside data _ hoff, hoff]
    · simp [writeCells, offsetCells, hoff] at hc
  | pingCheck =>
    cases h
    cases h'
    obtain rfl := List.mem_singleton.mp hc
    have h0 : Memory.read s.rsp 0 = Memory.read s'.rsp 0 := BitVec.eq_of_toNat_eq (hreads (.rsp 0) (by simp [readCells]))
    have hm : s.cfg.pingMarker = s'.cfg.pingMarker := BitVec.eq_of_toNat_eq (hreads .pingMarker (by simp [readCells]))
    simp [cellValue, memRead, State.buffer, h0, hm]
  | setAngle ch p =>
    cases hp : validAngle p with
    | none => simp [writeCells, hp] at hc
    | some k =>
      simp only [exec, execSetAngle, hp] at h h'
      cases h
      cases h'
      rw [writeCells_setAngle hp] at hc
      exact cellValue_setChannel_congr k hc hdraws (hreads .timerTop (by simp [readCells]))
        (hrMap_eq_of_cellValue_eq (hreads .hrMap (by simp [readCells])))
  | readDuty ch =>
    cases h
    cases h'
    obtain rfl := List.mem_singleton.mp hc
    simp only [readCells, channelCells_eq] at hreads
    exact congrArg BitVec.toNat (dutyOf_congr hreads)
  | readTop =>
    cases h
    cases h'
    obtain rfl := List.mem_singleton.mp hc
    have htop : timerTop s.cfg = timerTop s'.cfg := hreads .timerTop (List.mem_singleton_self _)
    simp [cellValue, timerTopHalf, htop]

/-- Settles O33: the frame of each command's row, and the cells its results come from. -/
theorem commandsKeepToTheAccessMatrix : Obligations.CommandsKeepToTheAccessMatrix :=
  ⟨fun _ _ _ _ h hc => cellValue_of_notMem_writeCells h hc,
    fun _ _ _ _ _ h h' hdraws hreads _ hc => cellValue_congr_of_mem_writeCells h h' hdraws hreads hc⟩

end Sys2Proof.Safety
end

section
/-! SUPPORT. The exact value of a finite binary32 pattern is its whole number of units (R44), and what SET_ANGLE accepts (R72). -/

namespace Sys2Proof.Safety

open Sys2Proof.Machine

/-! ### The fields of a pattern, read as bits and as numbers (R44) -/

theorem f32Exp_eq_expField (p : Pattern32) : f32Exp p = expField p := by
  simp [f32Exp, expField, Nat.shiftRight_eq_div_pow]

theorem f32Frac_eq_fracField (p : Pattern32) : f32Frac p = fracField p := by
  simp [f32Frac, fracField]

theorem signBit_eq (p : Pattern32) : signBit p = if f32Sign p then 1 else 0 := by
  have hlt := p.isLt
  have hbit : f32Sign p = decide (p.toNat / 2 ^ 31 % 2 = 1) := by
    rw [f32Sign, BitVec.getLsbD, Nat.testBit_eq_decide_div_mod_eq]
  simp only [signBit, hbit, decide_eq_true_eq]
  split <;> omega

/-- The magnitude of R44, as a whole number of units of `2^-149`. -/
theorem f32Units_scaled (p : Pattern32) : (f32Units p : ℚ) * 2 ^ (-149 : ℤ) =
    if expField p = 0 then (fracField p : ℚ) * 2 ^ (-149 : ℤ)
    else (2 ^ 23 + fracField p : ℚ) * 2 ^ ((expField p : ℤ) - 150) := by
  simp only [f32Units, f32Exp_eq_expField, f32Frac_eq_fracField]
  split
  case isTrue => rfl
  case isFalse he =>
    have hexp : ((expField p - 1 : ℕ) : ℤ) + -149 = (expField p : ℤ) - 150 := by omega
    have hpow : (2 : ℚ) ^ (expField p - 1) * 2 ^ (-149 : ℤ) = 2 ^ ((expField p : ℤ) - 150) := by
      rw [← zpow_natCast, ← zpow_add₀ two_ne_zero, hexp]
    rw [← hpow]
    push_cast
    ring

/-- R44: the value of a finite pattern, sign and magnitude. -/
theorem finiteValue_eq_units (p : Pattern32) :
    finiteValue p = (if f32Sign p then -(f32Units p : ℚ) else f32Units p) * 2 ^ (-149 : ℤ) := by
  have hsign : ((-1 : ℚ)) ^ signBit p = if f32Sign p then -1 else 1 := by
    rw [signBit_eq]
    split <;> norm_num
  have hvalue : finiteValue p = (-1) ^ signBit p * ((f32Units p : ℚ) * 2 ^ (-149 : ℤ)) := by
    rw [f32Units_scaled, finiteValue]
    split <;> ring
  rw [hvalue, hsign]
  split <;> ring

/-- A pattern the model calls finite is finite, with the value R44 gives it. -/
theorem finite_of_f32val {p : Pattern32} {k : ℤ} (h : f32val p = .finite k) :
    expField p ≠ 255 ∧ finiteValue p = (k : ℚ) * 2 ^ (-149 : ℤ) := by
  simp only [f32val, f32Exp_eq_expField] at h
  split at h
  case isTrue =>
    split at h
    · cases h
    · split at h <;> cases h
  case isFalse he =>
    cases h
    refine ⟨he, ?_⟩
    rw [finiteValue_eq_units]
    split <;> push_cast <;> rfl

/-- R72: a pattern with a valid angle is one SET_ANGLE accepts. -/
theorem acceptsAngle_of_validAngle {p : Pattern32} {k : ℤ} (h : validAngle p = some k) : acceptsAngle p := by
  obtain ⟨hfinite, h0, h1⟩ := validAngle_bounds h
  obtain ⟨hexp, hvalue⟩ := finite_of_f32val hfinite
  have hunit : (0 : ℚ) < 2 ^ (-149 : ℤ) := by positivity
  have h0' : (0 : ℚ) ≤ k := by exact_mod_cast h0
  have h1' : (k : ℚ) ≤ 180 * 2 ^ 149 := by exact_mod_cast h1
  have htop : (180 * 2 ^ 149 : ℚ) * 2 ^ (-149 : ℤ) = 180 := by norm_num
  refine ⟨hexp, ?_, ?_⟩
  · rw [hvalue]
    positivity
  · calc finiteValue p = k * 2 ^ (-149 : ℤ) := hvalue
      _ ≤ 180 * 2 ^ 149 * 2 ^ (-149 : ℤ) := mul_le_mul_of_nonneg_right h1' hunit.le
      _ = 180 := htop

end Sys2Proof.Safety
end

section
/-! SUPPORT. Which commands change each register (O34). -/

namespace Sys2Proof.Safety

open Sys2Proof.Machine

/-- Only the operand byte of its own number names a high-resolution channel (R46). -/
theorem eq_of_channelOf_hr {ch : Byte} {c : HrChannel} (h : channelOf ch = .hr c) : ch = BitVec.ofNat 8 (hrIndex c) := by
  cases c <;> revert ch <;> decide

/-- Only the operand byte 3 names the 8-bit channel (R46). -/
theorem eq_three_of_channelOf_eightBit {ch : Byte} (h : channelOf ch = .eightBit) : ch = 3#8 := by
  revert ch
  decide

section
variable {i : Instr} {s t : State} (h : CommandEffect s i t)
include h

/-- R14: a high-resolution compare register that differs was written by SET_ANGLE of its channel with an accepted angle. -/
theorem setAngle_of_hrCmp_ne {c : HrChannel} (hne : t.hrCmp c ≠ s.hrCmp c) :
    ∃ p, i = .setAngle (BitVec.ofNat 8 (hrIndex c)) p ∧ acceptsAngle p := by
  obtain ⟨ch, p, k, rfl, hch, hp, -⟩ := (h.hrCmp_eq_or c).resolve_left hne
  exact ⟨p, by rw [← eq_of_channelOf_hr hch], acceptsAngle_of_validAngle hp⟩

/-- R14: the same of `CMP[3]`. -/
theorem setAngle_of_cmp3_ne (hne : t.cmp3 ≠ s.cmp3) : ∃ p, i = .setAngle 3#8 p ∧ acceptsAngle p := by
  obtain ⟨ch, p, k, rfl, hch, hp⟩ := h.cmp3_eq_or.resolve_left hne
  exact ⟨p, by rw [← eq_three_of_channelOf_eightBit hch], acceptsAngle_of_validAngle hp⟩

end

/-- Settles O34: a step without an input changes nothing, and a command's effect on each register names the command. -/
theorem onlyTheNamedCommandsChangeEachRegister : Obligations.OnlyTheNamedCommandsChangeEachRegister := by
  intro s t h
  obtain ⟨-, ⟨-, rfl⟩ | ⟨rest, hreset, -⟩ | ⟨w, rest, i, hw, hd, hexec⟩⟩ := step_cases h
  · exact .inr ⟨absurd rfl, absurd rfl, absurd rfl, absurd rfl, absurd rfl, absurd rfl, absurd rfl⟩
  · exact .inl ⟨rest, hreset⟩
  · have he := exec_effect hexec
    have hduty (c : HrChannel) (hne : t.hrCmp c ≠ s.hrCmp c) : ∃ w rest p, s.pending = .command w :: rest ∧
        decode w = .command (.setAngle (BitVec.ofNat 8 (hrIndex c)) p) ∧ acceptsAngle p := by
      obtain ⟨p, rfl, hp⟩ := setAngle_of_hrCmp_ne he (by simpa using hne)
      exact ⟨w, rest, p, hw, hd, hp⟩
    refine .inr ⟨fun hne => ?_, fun hne => ?_, hduty .ch0, hduty .ch1, hduty .ch2, fun hne => ?_, fun hne => ?_⟩
    · obtain ⟨tool, toolId, function, value, rfl, -⟩ := he.cmd_eq_or.resolve_left hne
      exact ⟨w, rest, tool, toolId, function, value, hw, hd⟩
    · obtain ⟨off, data, rfl, hoff, -⟩ := he.rsp_eq_or.resolve_left hne
      exact ⟨w, rest, off, data, hw, hd, hoff⟩
    · obtain ⟨p, rfl, hp⟩ := setAngle_of_cmp3_ne he hne
      exact ⟨w, rest, p, hw, hd, hp⟩
    · exact ⟨w, rest, i, hw, hd, he.res_eq_or.resolve_left hne⟩

end Sys2Proof.Safety
end

section
/-! SUPPORT. An encoded command decodes to itself, and commands run in the order issued (R36, R125; O8). -/

namespace Sys2Proof

/-- R54: a well-formed command is what its encoded word decodes to. -/
theorem decode_encode {i : Instr} (hi : i.wellFormed = true) : decode (encode i) = .command i := by
  cases i with
  | nop | decodeValue | pingCheck | readTop => simp only [decode, fieldOp_encode, opcodeOf]
  | readCmd off | respRead off | readDuty off =>
    simp [decode, opcodeOf, fieldA, field_encode, operandBits, field_place_self]
  | respWrite off data =>
    simp [decode, opcodeOf, fieldA, fieldD8, field_encode, operandBits, field_or, field_place_self, field_place_above,
      field_place_below]
  | setAngle ch p =>
    simp [decode, opcodeOf, fieldA, fieldImm32, field_encode, operandBits, field_or, field_place_self, field_place_above,
      field_place_below]
  | encode tool toolId function value =>
    simp [decode, opcodeOf, fieldA, fieldB, fieldC, fieldImm16, field_encode, operandBits, field_or, field_place_self,
      field_place_above, field_place_below, sval16_bits16 hi]

end Sys2Proof

namespace Sys2Proof.Machine

/-- R109: every command answers a next state. -/
theorem exec_completes (i : Instr) (s : State) : ∃ t, exec i s = .next t := by
  cases i with
  | setAngle ch p =>
    simp only [exec, execSetAngle]
    cases validAngle p with
    | none => exact ⟨s, rfl⟩
    | some k => exact ⟨_, rfl⟩
  | nop | encode | decodeValue | readCmd | respWrite | respRead | pingCheck | readDuty | readTop => exact ⟨_, rfl⟩

/-- `hr_duty` sees of the state only the configuration and the count of free values (R74, R75): an update `f` of anything else
can be made before it or after it. -/
theorem hrDuty_update (k : Int) {f : State → State} {s : State} (hcfg : (f s).cfg = s.cfg) (hdraws : (f s).draws = s.draws)
    (hnext : (f s).nextDraw = f s.nextDraw) : hrDuty k (f s) = ((hrDuty k s).1, f (hrDuty k s).2) := by
  simp only [hrDuty, hcfg, hdraws, hnext]
  split
  · rfl
  · split <;> rfl

/-- A read into `RES` does not see the host's stream. -/
theorem readToRes_setPending (b : Buffer) (a : Nat) (s : State) (q : List HostInput) :
    readToRes b a (s.setPending q) = (readToRes b a s).setPending q := by
  have hbuffer : (s.setPending q).buffer b = s.buffer b := by cases b <;> rfl
  by_cases h : a < frameCapacity
  · rw [readToRes_inside b _ h, readToRes_inside b _ h, hbuffer]
    rfl
  · rw [readToRes_outside b _ h, readToRes_outside b _ h]
    rfl

/-- The byte store of RESP_WRITE does not see the host's stream. -/
theorem memWriteRsp_setPending (a : Nat) (v : Byte) (s : State) (q : List HostInput) :
    memWriteRsp a v (s.setPending q) = (memWriteRsp a v s).setPending q := by
  by_cases h : a < frameCapacity
  · rw [memWriteRsp_inside v _ h, memWriteRsp_inside v _ h]
    rfl
  · rw [memWriteRsp_outside v _ h, memWriteRsp_outside v _ h]

/-- SET_ANGLE does not see the host's stream. -/
theorem setChannel_setPending (c : Channel) (k : Int) (s : State) (q : List HostInput) :
    setChannel c k (s.setPending q) = (setChannel c k s).setPending q := by
  cases c with
  | hr d =>
    simp only [setChannel, hrDuty_update (f := (·.setPending q)) k rfl rfl rfl]
    cases d <;> rfl
  | eightBit | absent => rfl

/-- What READ_DUTY reads is not of the host's stream (R79). -/
@[simp] theorem dutyOf_setPending (c : Channel) (s : State) (q : List HostInput) :
    dutyOf c (s.setPending q) = dutyOf c s := by
  cases c with
  | hr d => exact State.setPending_hrCmp s q d
  | eightBit | absent => rfl

/-- R18: a command does the same whatever the host has still to give, which it leaves as it is. -/
theorem exec_setPending {i : Instr} {s t : State} (h : exec i s = .next t) (q : List HostInput) :
    exec i (s.setPending q) = .next (t.setPending q) := by
  cases i with
  | readCmd | respRead =>
    cases h
    exact congrArg Host.Outcome.next (readToRes_setPending _ _ s q)
  | respWrite =>
    cases h
    exact congrArg Host.Outcome.next (memWriteRsp_setPending _ _ s q)
  | setAngle ch p =>
    simp only [exec, execSetAngle] at h ⊢
    split at h
    · cases h
      rfl
    · cases h
      exact congrArg Host.Outcome.next (setChannel_setPending _ _ s q)
  | readDuty ch =>
    cases h
    simp only [exec, execReadDuty, dutyOf_setPending]
    rfl
  | nop | encode | decodeValue | pingCheck | readTop =>
    cases h
    rfl

/-- A step whose next input is an encoded command runs that command and leaves the rest of the stream. -/
theorem step_issued {i : Instr} {s t : State} (hl : legalConfig s.cfg = true) (hi : i.wellFormed = true)
    (h : exec i s = .next t) (q : List HostInput) :
    step (s.setPending (.command (encode i) :: q)) = .next (t.setPending q) := by
  have hstep : step (s.setPending (.command (encode i) :: q)) = runWord (encode i) (s.setPending q) :=
    step_of_pending_cons (s := s.setPending (.command (encode i) :: q)) hl rfl
  rw [hstep, runWord_of_command (decode_encode hi), exec_setPending h q]

/-- The commands after the first run on the state it left (R36). -/
theorem execSeq_cons_of_next {i : Instr} {s t : State} (h : exec i s = .next t) (is : List Instr) :
    execSeq (i :: is) s = execSeq is t := by
  simp only [execSeq, h]

/-- Settles O8, by induction on the commands: the first step runs the first command, which leaves the stream of the others. -/
theorem commandsRunInTheOrderIssued : Obligations.CommandsRunInTheOrderIssued := by
  intro is
  induction is with
  | nil =>
    intro s _ _
    rfl
  | cons i is ih =>
    intro s hl hwf
    obtain ⟨hi, his⟩ := List.forall_mem_cons.mp hwf
    obtain ⟨t, ht⟩ := exec_completes i s
    obtain ⟨hcfg, hpending⟩ := exec_keeps_cfg_pending ht
    rw [execSeq_cons_of_next ht, ← ih t (hcfg ▸ hl) his, hpending]
    exact core_run_next (step_issued hl hi ht _)

end Sys2Proof.Machine
end

section
/-! SUPPORT. The byte store of RESP_WRITE (R25, R26; O20). -/

namespace Sys2Proof.Machine

/-- Settles O20: in range a write of one byte of `RSP` (R25), past the end nothing (R26). -/
theorem respWriteDepositsOneByte : Obligations.RespWriteDepositsOneByte := by
  intro off data s
  constructor
  · intro h
    refine ⟨Memory.write s.rsp off.toNat data, congrArg Host.Outcome.next (memWriteRsp_inside data s h), fun a ha => ?_⟩
    rw [Memory.read_write, if_pos ha]
  · intro h
    exact congrArg Host.Outcome.next (memWriteRsp_outside data s (Nat.not_lt.mpr h))

end Sys2Proof.Machine
end

section
/-! SUPPORT. What a command does when issued again, and the free values it takes (R34, R81; O35). -/

namespace Sys2Proof.Machine

open Sys2Proof.Safety

@[simp] theorem State.setRsp_setRsp (s : State) (m m' : Memory) : (s.setRsp m).setRsp m' = s.setRsp m' := rfl

@[simp] theorem State.setHrCmp_setHrCmp (s : State) (c : HrChannel) (v w : Half) :
    (s.setHrCmp c v).setHrCmp c w = s.setHrCmp c w := by cases c <;> rfl

/-- R34: a command that produces a result changes only `RES` and the count of free values. -/
theorem CommandEffect.eq_of_res_mem_writeCells {i : Instr} {s t : State} (h : CommandEffect s i t)
    (hi : Cell.res ∈ writeCells i) : t = { s with res := t.res, draws := t.draws } := by
  cases h with
  | unchanged | result => rfl
  | frame => exact absurd hi (by simp [writeCells])
  | response hoff => exact absurd hi (by simp [writeCells, offsetCells_of_lt _ hoff])
  | duty hp hc | duty8 hp hc => exact absurd hi (by simp [writeCells_setAngle hp, hc, registerCells])

/-- A read takes a free value exactly where the offset is out of range (R23, R24). -/
theorem readToRes_draws_eq_iff (b : Buffer) (a : Nat) (s : State) : (readToRes b a s).draws = s.draws ↔ a < frameCapacity := by
  by_cases h : a < frameCapacity
  · simp only [readToRes_inside b s h, State.setRes_draws, h]
  · simpa [readToRes_outside b s h] using h

/-- A read in range, made again, reads the same byte (R34). -/
theorem readToRes_readToRes (b : Buffer) {a : Nat} (s : State) (h : a < frameCapacity) :
    readToRes b a (readToRes b a s) = readToRes b a s := by
  rw [readToRes_inside b s h, readToRes_inside b _ h]
  cases b <;> rfl

/-- RESP_WRITE takes no free value. -/
theorem memWriteRsp_draws (a : Nat) (v : Byte) (s : State) : (memWriteRsp a v s).draws = s.draws := by
  by_cases h : a < frameCapacity
  · rw [memWriteRsp_inside v s h]
    rfl
  · rw [memWriteRsp_outside v s h]

/-- A byte stored again is the same byte (R34). -/
theorem memWriteRsp_memWriteRsp (a : Nat) (v : Byte) (s : State) :
    memWriteRsp a v (memWriteRsp a v s) = memWriteRsp a v s := by
  by_cases h : a < frameCapacity
  · simp [memWriteRsp_inside v _ h, Memory.write_write]
  · simp only [memWriteRsp_outside v _ h]

/-- R81: SET_ANGLE again gives the same duty, unless its result was drawn. -/
theorem setChannel_setChannel {c : Channel} {k : Int} {s : State} (h : (setChannel c k s).draws = s.draws) :
    setChannel c k (setChannel c k s) = setChannel c k s := by
  cases c with
  | hr d =>
    have hstate : (hrDuty k s).2 = s := by
      refine (hrDuty_state k s).resolve_right fun hdrawn => ?_
      simp [setChannel, hdrawn] at h
    have hagain (v : Half) : hrDuty k (s.setHrCmp d v) = ((hrDuty k s).1, s.setHrCmp d v) := by
      rw [hrDuty_update (f := (·.setHrCmp d v)) k (by simp) (by simp) (by cases d <;> rfl), hstate]
    simp only [setChannel, hstate, hagain, State.setHrCmp_setHrCmp]
  | eightBit | absent => rfl

/-- Under NORMALIZED SET_ANGLE takes no free value (R74). -/
theorem setChannel_draws_normalized (c : Channel) (k : Int) {s : State} (h : s.cfg.hrMap = .normalized) :
    (setChannel c k s).draws = s.draws := by
  cases c with
  | hr d => simp [setChannel, hrDuty_normalized k h]
  | eightBit | absent => rfl

/-- What READ_DUTY reads is not changed by writing `RES` (R79). -/
@[simp] theorem dutyOf_setRes (c : Channel) (s : State) (v : Half) : dutyOf c (s.setRes v) = dutyOf c s := by
  cases c with
  | hr d => exact State.setRes_hrCmp s v d
  | eightBit | absent => rfl

/-- R34, R81: a command that took no free value, issued again, changes nothing. -/
theorem exec_again {i : Instr} {s t : State} (h : exec i s = .next t) (hdraws : t.draws = s.draws) :
    exec i t = .next t := by
  cases i with
  | readCmd | respRead =>
    cases h
    exact congrArg Host.Outcome.next (readToRes_readToRes _ s ((readToRes_draws_eq_iff _ _ s).mp hdraws))
  | respWrite =>
    cases h
    exact congrArg Host.Outcome.next (memWriteRsp_memWriteRsp _ _ s)
  | setAngle ch p =>
    simp only [exec, execSetAngle] at h ⊢
    split at h
    · cases h
      rfl
    · cases h
      exact congrArg Host.Outcome.next (setChannel_setChannel hdraws)
  | readDuty ch =>
    cases h
    simp only [exec, execReadDuty, dutyOf_setRes]
    rfl
  | nop | encode | decodeValue | pingCheck | readTop =>
    cases h
    rfl

/-- R24, R75: no command takes a free value but a read out of range and a SET_ANGLE under LITERAL. -/
theorem exec_draws_eq {i : Instr} {s t : State} (h : exec i s = .next t)
    (hread : ∀ off, (i = .readCmd off ∨ i = .respRead off) → off.toNat < 8)
    (hangle : ∀ ch p, i = .setAngle ch p → s.cfg.hrMap = .normalized) : t.draws = s.draws := by
  cases i with
  | readCmd off =>
    cases h
    exact (readToRes_draws_eq_iff _ _ s).mpr (hread off (.inl rfl))
  | respRead off =>
    cases h
    exact (readToRes_draws_eq_iff _ _ s).mpr (hread off (.inr rfl))
  | respWrite =>
    cases h
    exact memWriteRsp_draws _ _ s
  | setAngle ch p =>
    simp only [exec, execSetAngle] at h
    split at h
    · cases h
      rfl
    · cases h
      exact setChannel_draws_normalized _ _ (hangle ch p rfl)
  | nop | encode | decodeValue | pingCheck | readDuty | readTop =>
    cases h
    rfl

/-- Settles O35: the effect of a result-producing command, the command issued again, and the commands that take no free value. -/
theorem repeatingACommandChangesNothingMore : Obligations.RepeatingACommandChangesNothingMore :=
  ⟨fun _ _ _ h hi => (exec_effect h).eq_of_res_mem_writeCells hi, fun _ _ _ h hdraws => exec_again h hdraws,
    fun _ _ _ h hread hangle => exec_draws_eq h hread hangle⟩

end Sys2Proof.Machine
end

section
/-! SUPPORT. The command word, decoded and encoded: which command a word is, and with which operands (R42, R43, R47, R48, R54; O1,
O2). -/

namespace Sys2Proof

open Sys2Proof.Machine

/-! ### The command of a word -/

/-- The command of the same name with its operands read from the word, each at its place (R42, R45, R46). -/
def Instr.readFrom (w : CommandWord) : Instr → Instr
  | .nop => .nop
  | .encode .. => .encode (fieldA w) (fieldB w) (fieldC w) (sval16 (fieldImm16 w))
  | .decodeValue => .decodeValue
  | .readCmd _ => .readCmd (fieldA w)
  | .respWrite .. => .respWrite (fieldA w) (fieldD8 w)
  | .respRead _ => .respRead (fieldA w)
  | .pingCheck => .pingCheck
  | .setAngle .. => .setAngle (fieldA w) (fieldImm32 w)
  | .readDuty _ => .readDuty (fieldA w)
  | .readTop => .readTop

/-- Other operands leave the opcode (R47). -/
@[simp] theorem opcodeOf_readFrom (w : CommandWord) (i : Instr) : opcodeOf (i.readFrom w) = opcodeOf i := by
  cases i <;> rfl

/-- The operands read depend on the word alone. -/
@[simp] theorem Instr.readFrom_readFrom (w : CommandWord) (i : Instr) : (i.readFrom w).readFrom w = i.readFrom w := by
  cases i <;> rfl

/-- A command read from a word is well-formed: the one ranged operand is read from 16 bits (R45). -/
theorem Instr.wellFormed_readFrom (w : CommandWord) (i : Instr) : (i.readFrom w).wellFormed = true := by
  cases i with
  | encode => exact inS16_sval16 _
  | nop | decodeValue | readCmd | respWrite | respRead | pingCheck | setAngle | readDuty | readTop => rfl

/-- R47: a word with a command's opcode decodes to that command, its operands read from the word. -/
theorem decode_of_fieldOp_eq {w : CommandWord} {i : Instr} (h : fieldOp w = opcodeOf i) :
    decode w = .command (i.readFrom w) := by
  cases i <;> simp only [decode, h, opcodeOf, Instr.readFrom]

/-- R49: a word whose opcode is no command's decodes to the refusal of that opcode. -/
theorem decode_of_forall_opcodeOf_ne {w : CommandWord} (h : ∀ i, opcodeOf i ≠ fieldOp w) :
    decode w = .reservedOpcode (fieldOp w) := by
  simp only [decode]
  split
  case h_1 hop => exact absurd hop.symm (h .nop)
  case h_2 hop => exact absurd hop.symm (h (.encode 0#8 0#8 0#8 0))
  case h_3 hop => exact absurd hop.symm (h .decodeValue)
  case h_4 hop => exact absurd hop.symm (h (.readCmd 0#8))
  case h_5 hop => exact absurd hop.symm (h (.respWrite 0#8 0#8))
  case h_6 hop => exact absurd hop.symm (h (.respRead 0#8))
  case h_7 hop => exact absurd hop.symm (h .pingCheck)
  case h_8 hop => exact absurd hop.symm (h (.setAngle 0#8 0#32))
  case h_9 hop => exact absurd hop.symm (h (.readDuty 0#8))
  case h_10 hop => exact absurd hop.symm (h .readTop)
  case h_11 => rfl

/-- A word decodes to a command exactly where it has the command's opcode and operands. -/
theorem decode_eq_command_iff {w : CommandWord} {i : Instr} :
    decode w = .command i ↔ fieldOp w = opcodeOf i ∧ i.readFrom w = i := by
  constructor
  · intro hd
    by_cases h : ∃ j, opcodeOf j = fieldOp w
    · obtain ⟨j, hj⟩ := h
      rw [decode_of_fieldOp_eq hj.symm] at hd
      injection hd with hd
      subst hd
      simp [hj]
    · rw [decode_of_forall_opcodeOf_ne (not_exists.mp h)] at hd
      cases hd
  · rintro ⟨hop, hi⟩
    rw [decode_of_fieldOp_eq hop, hi]

/-! ### The bits of a format (R43) -/

/-- The bits of the field `w[lo+n-1:lo]` (R1). -/
def fieldMask (lo n : Nat) : CommandWord := place (BitVec.allOnes n) lo

/-- A field put back where it was read is the word with its other bits zero. -/
theorem place_field (w : CommandWord) (lo n : Nat) : place (field w lo n) lo = w &&& fieldMask lo n := by
  apply BitVec.eq_of_getLsbD_eq
  intro k hk
  simp only [fieldMask, getLsbD_place, getLsbD_field, BitVec.getLsbD_and, BitVec.getLsbD_allOnes]
  by_cases hlo : lo ≤ k
  · simp [hk, hlo, Bool.and_comm]
  · simp [hlo]

/-- A field under a mask that keeps all its bits. -/
theorem field_and_of_allOnes (w : CommandWord) {m : CommandWord} {lo n : Nat} (h : field m lo n = BitVec.allOnes n) :
    field (w &&& m) lo n = field w lo n := by
  have hand : field (w &&& m) lo n = field w lo n &&& field m lo n := BitVec.extractLsb'_and ..
  rw [hand, h, BitVec.and_allOnes]

/-- Every format uses the opcode (R43). -/
theorem fieldOp_and_usedMask (w : CommandWord) (f : Format) : fieldOp (w &&& usedMask f) = fieldOp w := by
  refine field_and_of_allOnes w ?_
  cases f <;> decide

/-- A format uses the bits its commands' operands are read from (R43, R48). -/
theorem Instr.readFrom_and_usedMask (w : CommandWord) (i : Instr) :
    i.readFrom (w &&& usedMask (formatOf i)) = i.readFrom w := by
  cases i <;> simp (disch := decide) only [Instr.readFrom, formatOf, fieldA, fieldB, fieldC, fieldD8, fieldImm16, fieldImm32,
    field_and_of_allOnes]

/-- R48: whether a word decodes to a command is seen from the bits of the command's format. -/
theorem decode_and_usedMask_iff {w : CommandWord} {i : Instr} :
    decode (w &&& usedMask (formatOf i)) = .command i ↔ decode w = .command i := by
  rw [decode_eq_command_iff, decode_eq_command_iff, fieldOp_and_usedMask, Instr.readFrom_and_usedMask]

/-- The bits of a format's operands (R42, R43). -/
def operandMask : Format → CommandWord
  | .f0 => 0#64
  | .fa => fieldMask 48 8
  | .fad => fieldMask 48 8 ||| fieldMask 0 8
  | .fang => fieldMask 48 8 ||| fieldMask 0 32
  | .fenc => fieldMask 48 8 ||| fieldMask 40 8 ||| fieldMask 32 8 ||| fieldMask 0 16

/-- A format uses the bits of the opcode and of its operands (R43). -/
theorem usedMask_eq_or (f : Format) : usedMask f = fieldMask 56 8 ||| operandMask f := by
  cases f <;> rfl

/-- The operands read from a word, put back at their places, are the word's bits there. -/
theorem operandBits_readFrom (w : CommandWord) (i : Instr) :
    operandBits (i.readFrom w) = w &&& operandMask (formatOf i) := by
  cases i <;> simp only [operandMask, formatOf, operandBits, Instr.readFrom, fieldA, fieldB, fieldC, fieldD8, fieldImm16,
    fieldImm32, bits16_sval16, place_field, BitVec.and_or_distrib_left, BitVec.and_zero]

/-- R54: re-encoding a decoded word gives the word with its ignored bits zero. -/
theorem encode_of_decode {w : CommandWord} {i : Instr} (h : decode w = .command i) :
    encode i = w &&& usedMask (formatOf i) := by
  obtain ⟨hop, hi⟩ := decode_eq_command_iff.mp h
  calc encode i = place (fieldOp w) 56 ||| operandBits (i.readFrom w) := by rw [encode, hop, hi]
    _ = w &&& fieldMask 56 8 ||| w &&& operandMask (formatOf i) := by rw [fieldOp, place_field, operandBits_readFrom]
    _ = w &&& usedMask (formatOf i) := by rw [usedMask_eq_or, BitVec.and_or_distrib_left]

/-- R54: every word decodes to a well-formed command with its opcode, or its opcode is no command's and is refused. -/
theorem decode_cases (w : CommandWord) :
    (∃ i, decode w = .command i ∧ opcodeOf i = fieldOp w ∧ i.wellFormed = true) ∨
    (decode w = .reservedOpcode (fieldOp w) ∧ ∀ i, opcodeOf i ≠ fieldOp w) := by
  by_cases h : ∃ i, opcodeOf i = fieldOp w
  · obtain ⟨i, hi⟩ := h
    exact .inl ⟨i.readFrom w, decode_of_fieldOp_eq hi.symm, (opcodeOf_readFrom w i).trans hi, Instr.wellFormed_readFrom w i⟩
  · have hne := not_exists.mp h
    exact .inr ⟨decode_of_forall_opcodeOf_ne hne, hne⟩

/-- Settles O1: the decoder's two answers, the encoded command decoded, and the decoded word encoded. -/
theorem decodeAndEncodeAgree : Obligations.DecodeAndEncodeAgree :=
  ⟨decode_cases, fun _ => decode_encode, fun _ _ => encode_of_decode⟩

/-- Settles O2: decoding sees the two words only through the bits in which they agree. -/
theorem ignoredBitsHaveNoEffect : Obligations.IgnoredBitsHaveNoEffect := by
  intro w w' i hd hagree
  have hd' : decode w' = .command i := by
    rw [← decode_and_usedMask_iff, hagree]
    exact decode_and_usedMask_iff.mpr hd
  exact ⟨hd', fun s => (runWord_of_command hd' s).trans (runWord_of_command hd s).symm⟩

end Sys2Proof
end

section
/-! SUPPORT. The fields of a command word and the word of a command, as numbers (R42, R52; O3, O4, O6). -/

namespace Sys2Proof

open Sys2Proof.Machine

/-! ### Fields as numbers -/

/-- `w[lo+n-1:lo]` as a number (R1). -/
theorem field_eq_ofNat (w : CommandWord) (lo n : Nat) : field w lo n = BitVec.ofNat n (w.toNat / 2 ^ lo) := by
  rw [← Nat.shiftRight_eq_div_pow]
  rfl

/-- A field at bit 0 is the word's number, cut to the field (R1). -/
theorem field_zero_eq_ofNat (w : CommandWord) (n : Nat) : field w 0 n = BitVec.ofNat n w.toNat := by
  rw [field_eq_ofNat, pow_zero, Nat.div_one]

/-- The opcode is the top byte of the word (R42). -/
theorem fieldOp_toNat (w : CommandWord) : (fieldOp w).toNat = w.toNat / 2 ^ 56 := by
  have hw := w.isLt
  rw [fieldOp, field_eq_ofNat, BitVec.toNat_ofNat]
  omega

/-- `sval_16` of the low 16 bits (R2, R45). -/
theorem sval16_fieldImm16 (w : CommandWord) : sval16 (fieldImm16 w) =
    if w.toNat % 2 ^ 16 < 2 ^ 15 then ((w.toNat % 2 ^ 16 : ℕ) : ℤ) else ((w.toNat % 2 ^ 16 : ℕ) : ℤ) - 2 ^ 16 := by
  have hhalf : 2 * (w.toNat % 2 ^ 16) < 2 ^ 16 ↔ w.toNat % 2 ^ 16 < 2 ^ 15 := by omega
  rw [sval16, fieldImm16, field_zero_eq_ofNat, BitVec.toInt_eq_toNat_cond, BitVec.toNat_ofNat]
  simp only [hhalf, Nat.cast_pow, Nat.cast_ofNat]

/-- Settles O3: the word has the opcode of the command named, and the command's operands are the word's fields. -/
theorem opcodeSelectsCommandAndOperands : Obligations.OpcodeSelectsCommandAndOperands := by
  intro w op a b c d imm16 value
  have hdecode (i : Instr) (h : op = (opcodeOf i).toNat) : decode w = .command (i.readFrom w) :=
    decode_of_fieldOp_eq (BitVec.eq_of_toNat_eq ((fieldOp_toNat w).trans h))
  have ha : fieldA w = a := field_eq_ofNat w 48 8
  have hb : fieldB w = b := field_eq_ofNat w 40 8
  have hc : fieldC w = c := field_eq_ofNat w 32 8
  have hd : fieldD8 w = d := field_zero_eq_ofNat w 8
  have hangle : fieldImm32 w = BitVec.ofNat 32 w.toNat := field_zero_eq_ofNat w 32
  have hvalue : sval16 (fieldImm16 w) = value := sval16_fieldImm16 w
  rw [← ha, ← hb, ← hc, ← hd, ← hangle, ← hvalue]
  exact ⟨hdecode .nop, hdecode (.encode 0#8 0#8 0#8 0), hdecode .decodeValue, hdecode (.readCmd 0#8),
    hdecode (.respWrite 0#8 0#8), hdecode (.respRead 0#8), hdecode .pingCheck, hdecode (.setAngle 0#8 0#32),
    hdecode (.readDuty 0#8), hdecode .readTop⟩

/-- The opcodes of R47 lie in two ranges. -/
theorem opcodeOf_ranges (i : Instr) :
    (opcodeOf i).toNat ≤ 0x06 ∨ 0x10 ≤ (opcodeOf i).toNat ∧ (opcodeOf i).toNat ≤ 0x12 := by
  cases i <;> simp only [opcodeOf] <;> decide

/-- Settles O6: no command has an opcode of R49's ranges, so the decoder refuses the word. -/
theorem reservedOpcodesAreRefused : Obligations.ReservedOpcodesAreRefused := by
  intro s w hop
  have hne (i : Instr) : opcodeOf i ≠ fieldOp w := by
    intro h
    have hranges := opcodeOf_ranges i
    rw [h, fieldOp_toNat] at hranges
    omega
  have hfield : fieldOp w = BitVec.ofNat 8 (w.toNat / 2 ^ 56) := field_eq_ofNat w 56 8
  rw [← hfield]
  exact runWord_of_reservedOpcode (decode_of_forall_opcodeOf_ne hne) s

/-! ### Words as numbers -/

/-- A field at its place, as a number. -/
theorem toNat_place {n : Nat} (v : BitVec n) {lo : Nat} (h : lo + n ≤ 64) : (place v lo).toNat = v.toNat * 2 ^ lo := by
  have hv : v.toNat * 2 ^ lo < 2 ^ 64 := calc
    v.toNat * 2 ^ lo < 2 ^ n * 2 ^ lo := Nat.mul_lt_mul_of_pos_right v.isLt (Nat.two_pow_pos lo)
    _ = 2 ^ (lo + n) := by rw [pow_add, mul_comm]
    _ ≤ 2 ^ 64 := Nat.pow_le_pow_right two_pos h
  have hv' : v.toNat < 2 ^ 64 := lt_of_le_of_lt (Nat.le_mul_of_pos_right _ (Nat.two_pow_pos lo)) hv
  rw [place, BitVec.toNat_shiftLeft, BitVec.toNat_setWidth, Nat.mod_eq_of_lt hv', Nat.shiftLeft_eq, Nat.mod_eq_of_lt hv]

/-- A field laid over bits below its place adds its number to theirs. -/
theorem toNat_place_or {n : Nat} (v : BitVec n) {lo : Nat} (h : lo + n ≤ 64) {x : CommandWord} (hx : x.toNat < 2 ^ lo) :
    (place v lo ||| x).toNat = v.toNat * 2 ^ lo + x.toNat := by
  rw [BitVec.toNat_or, toNat_place v h, ← Nat.shiftLeft_eq, Nat.shiftLeft_add_eq_or_of_lt hx]

/-- R52: the opcode stands above the operands. -/
theorem toNat_encode (i : Instr) : (encode i).toNat = (opcodeOf i).toNat * 2 ^ 56 + (operandBits i).toNat :=
  toNat_place_or _ (by decide) (Nat.lt_pow_two_of_testBit _ fun _ hk => operandBits_getLsbD_high i hk)

/-- `bits_16` as a number (R2). -/
theorem toNat_bits16 (v : Int) : (bits16 v).toNat = (v % 2 ^ 16).toNat := by
  rw [bits16, BitVec.toNat_ofInt]
  rfl

/-- The operands of ENCODE, as a number. -/
theorem toNat_operandBits_encode (tool toolId function : Byte) (value : Int) :
    (operandBits (.encode tool toolId function value)).toNat =
      tool.toNat * 2 ^ 48 + toolId.toNat * 2 ^ 40 + function.toNat * 2 ^ 32 + (value % 2 ^ 16).toNat := by
  have hvalue : (place (bits16 value) 0).toNat = (value % 2 ^ 16).toNat := by
    rw [toNat_place _ (by decide), toNat_bits16, pow_zero, mul_one]
  have hfunction := toNat_place_or function (lo := 32) (x := place (bits16 value) 0) (by decide) (by omega)
  have htoolId := toNat_place_or toolId (lo := 40) (x := place function 32 ||| place (bits16 value) 0) (by decide) (by omega)
  rw [operandBits, BitVec.or_assoc, BitVec.or_assoc, toNat_place_or tool (by decide) (by omega), htoolId, hfunction, hvalue]
  omega

/-- The word of a command whose one operand is a byte (R52). -/
theorem toNat_encode_byte {i : Instr} {a : Byte} (hi : operandBits i = place a 48) :
    (encode i).toNat = (opcodeOf i).toNat * 2 ^ 56 + a.toNat * 2 ^ 48 := by
  rw [toNat_encode, hi, toNat_place a (by decide)]

/-- The word of a command whose operands are a byte and a field at bit 0 (R52). -/
theorem toNat_encode_byte_low {i : Instr} {n : Nat} {a : Byte} {x : BitVec n} (hn : n ≤ 48)
    (hi : operandBits i = place a 48 ||| place x 0) :
    (encode i).toNat = (opcodeOf i).toNat * 2 ^ 56 + a.toNat * 2 ^ 48 + x.toNat := by
  have hx : (place x 0).toNat = x.toNat := by rw [toNat_place x (by omega), pow_zero, mul_one]
  have hlt : (place x 0).toNat < 2 ^ 48 := hx ▸ lt_of_lt_of_le x.isLt (Nat.pow_le_pow_right two_pos hn)
  rw [toNat_encode, hi, toNat_place_or a (by decide) hlt, hx, Nat.add_assoc]

/-- Settles O4: each word is its opcode's number and its operands'. -/
theorem encodedWordsFollowTheLayout : Obligations.EncodedWordsFollowTheLayout := by
  refine ⟨rfl, fun t n f v => ?_, rfl, fun off => toNat_encode_byte rfl, fun off data => toNat_encode_byte_low (by decide) rfl,
    fun off => toNat_encode_byte rfl, rfl, fun ch p => toNat_encode_byte_low (by decide) rfl,
    fun ch => toNat_encode_byte rfl, rfl⟩
  rw [toNat_encode, toNat_operandBits_encode, ← Nat.add_assoc, ← Nat.add_assoc, ← Nat.add_assoc]
  rfl

end Sys2Proof
end

section
/-! SUPPORT. The pseudo-commands (R53; O23). -/

namespace Sys2Proof.Machine

/-- A list of one command runs as the command. -/
theorem execSeq_singleton (i : Instr) (s : State) : execSeq [i] s = exec i s := by
  obtain ⟨t, ht⟩ := exec_completes i s
  rw [execSeq_cons_of_next ht, ht]
  rfl

/-- RESP_WRITE at an offset of the buffer, then more commands (R25, R61). -/
theorem execSeq_respWrite {off : Byte} (h : off.toNat < frameCapacity) (data : Byte) (is : List Instr) (s : State) :
    execSeq (.respWrite off data :: is) s = execSeq is (s.setRsp (Memory.write s.rsp off.toNat data)) := by
  have hexec : exec (.respWrite off data) s = .next (s.setRsp (Memory.write s.rsp off.toNat data)) :=
    congrArg Host.Outcome.next (memWriteRsp_inside data s h)
  exact execSeq_cons_of_next hexec is

/-- RSP.LOAD is the eight bytes written one after the other (R53). -/
theorem execSeq_expand_rspLoad (b0 b1 b2 b3 b4 b5 b6 b7 : Byte) (s : State) :
    execSeq (expand (.rspLoad b0 b1 b2 b3 b4 b5 b6 b7)) s = .next (s.setRsp
      ((((((((s.rsp.write 0 b0).write 1 b1).write 2 b2).write 3 b3).write 4 b4).write 5 b5).write 6 b6).write 7 b7)) := by
  simp (disch := decide) only [expand, execSeq_respWrite, State.setRsp_setRsp, State.setRsp_rsp]
  rfl

/-- Settles O23: an encoding with a tag is one ENCODE, and RSP.LOAD is eight byte stores at different offsets. -/
theorem pseudoCommandsExpand : Obligations.PseudoCommandsExpand := by
  constructor
  · intro n f v s
    exact ⟨execSeq_singleton _ s, execSeq_singleton _ s, execSeq_singleton _ s⟩
  · intro b0 b1 b2 b3 b4 b5 b6 b7 s
    exact ⟨_, execSeq_expand_rspLoad b0 b1 b2 b3 b4 b5 b6 b7 s, by simp⟩

end Sys2Proof.Machine
end

section
/-! SUPPORT. The class and value of every binary32 pattern (R44; O24). -/

namespace Sys2Proof.Safety

open Sys2Proof.Machine

/-- A pattern whose exponent is not 255 is finite, with the value R44 writes. -/
theorem f32val_finite {p : Pattern32} (h : expField p ≠ 255) :
    ∃ k : ℤ, f32val p = .finite k ∧ (k : ℚ) * 2 ^ (-149 : ℤ) = finiteValue p := by
  have hval : f32val p = .finite (if f32Sign p then -(f32Units p : ℤ) else f32Units p) := by
    rw [f32val, f32Exp_eq_expField, if_neg h]
  exact ⟨_, hval, (finite_of_f32val hval).2.symm⟩

/-- A pattern whose exponent is 255 and whose fraction is 0 is the infinity of its sign. -/
theorem f32val_infinite {p : Pattern32} (he : expField p = 255) (hm : fracField p = 0) :
    f32val p = if signBit p = 1 then .negInf else .posInf := by
  simp [f32val, f32Exp_eq_expField, f32Frac_eq_fracField, he, hm, signBit_eq]

/-- Settles O24: the class by exponent, fraction and sign, the value of a finite pattern, and the two zeros. -/
theorem patternsHaveTheirExactValue : Obligations.PatternsHaveTheirExactValue := by
  refine ⟨fun p => ⟨fun he hm => ?_, fun he hm hs => ?_, fun he hm hs => ?_, f32val_finite⟩, by decide, by decide⟩
  · rw [f32val, f32Exp_eq_expField, f32Frac_eq_fracField, if_pos he, if_pos hm]
  · rw [f32val_infinite he hm, hs]
    rfl
  · rw [f32val_infinite he hm, if_pos hs]

end Sys2Proof.Safety
end

section
/-! SUPPORT. The frame codec: the command frame written and its value read back (R55, R56, R58, R59), one byte read (R60, R62), the
Ping check (R63; O16, O17, O18, O19, O21, O22). -/

namespace Sys2Proof.Machine

/-! ### The value in the command frame -/

/-- Two bytes side by side, as a number (R1). -/
theorem toNat_byte_append (hi lo : Byte) : (hi ++ lo).toNat = hi.toNat * 256 + lo.toNat := by
  rw [BitVec.toNat_append, ← Nat.shiftLeft_add_eq_or_of_lt lo.isLt, Nat.shiftLeft_eq]

/-- Byte 3 of the frame is the high byte of the value (R29, R55). -/
theorem toNat_commandFrame_three (tool toolId function : Byte) (v : Half) :
    (commandFrame tool toolId function v 3).toNat = v.toNat / 256 := by
  have hv := v.isLt
  rw [commandFrame, BitVec.extractLsb'_toNat, Nat.shiftRight_eq_div_pow]
  omega

/-- Byte 4 of the frame is the low byte of the value (R29, R55). -/
theorem toNat_commandFrame_four (tool toolId function : Byte) (v : Half) :
    (commandFrame tool toolId function v 4).toNat = v.toNat % 256 :=
  BitVec.extractLsb'_toNat 0 8 v

/-- The two value bytes side by side are the value again. -/
theorem commandFrame_value_append (tool toolId function : Byte) (v : Half) :
    commandFrame tool toolId function v 3 ++ commandFrame tool toolId function v 4 = v := by
  apply BitVec.eq_of_toNat_eq
  rw [toNat_byte_append, toNat_commandFrame_three, toNat_commandFrame_four]
  exact Nat.div_add_mod' _ _

/-- DECODE_VALUE reads both bytes in range, so it takes no free value (R23, R58). -/
theorem exec_decodeValue (s : State) :
    exec .decodeValue s = .next (s.setRes (Memory.read s.cmd 3 ++ Memory.read s.cmd 4)) := rfl

/-- Settles O16: the bytes of the frame are read off the buffer that holds it. -/
theorem encodeBuildsTheCommandFrame : Obligations.EncodeBuildsTheCommandFrame := by
  intro tool toolId function value _ _
  have hvalue : (bits16 value).toNat = (value % 65536).toNat := toNat_bits16 value
  have hread (a : Nat) (h : a < 8) : Memory.read (Memory.ofBytes (commandFrame tool toolId function (bits16 value))) a =
      commandFrame tool toolId function (bits16 value) a := (Memory.read_ofBytes _ a).trans (if_pos h)
  refine ⟨_, fun s => rfl, hread 0 (by decide), hread 1 (by decide), hread 2 (by decide), ?_, ?_,
    hread 5 (by decide), hread 6 (by decide), hread 7 (by decide)⟩
  · rw [hread 3 (by decide), toNat_commandFrame_three, hvalue]
  · rw [hread 4 (by decide), toNat_commandFrame_four, hvalue]

/-- Settles O17: the two value bytes of the frame, side by side. -/
theorem decodeValueReadsTheValueBack : Obligations.DecodeValueReadsTheValueBack := by
  intro s
  exact ⟨_, toNat_byte_append _ _, exec_decodeValue s⟩

/-- R12: commands other than ENCODE complete, one after the other, with the command frame as it was. -/
theorem execSeq_keeps_cmd {is : List Instr} (his : ∀ a b c v, Instr.encode a b c v ∉ is) (s : State) :
    ∃ t, execSeq is s = .next t ∧ t.cmd = s.cmd := by
  induction is generalizing s with
  | nil => exact ⟨s, rfl, rfl⟩
  | cons i is ih =>
    obtain ⟨t, ht⟩ := exec_completes i s
    have hcmd : t.cmd = s.cmd := by
      rcases (exec_effect ht).cmd_eq_or with h | ⟨tool, toolId, function, value, hi, -⟩
      · exact h
      · exact absurd (hi ▸ List.mem_cons_self) (his tool toolId function value)
    obtain ⟨u, hu, hcmd'⟩ := ih (fun a b c v h => his a b c v (List.mem_cons_of_mem i h)) t
    exact ⟨u, (execSeq_cons_of_next ht is).trans hu, hcmd'.trans hcmd⟩

/-- Settles O18: the frame ENCODE left is still there when DECODE_VALUE joins its two value bytes, and `sval_16` undoes
`bits_16`. -/
theorem encodedValueIsRecovered : Obligations.EncodedValueIsRecovered := by
  intro tool toolId function value is s hlo hhi his
  obtain ⟨u, hu, hcmd⟩ :=
    execSeq_keeps_cmd his (s.setCmd (Memory.ofBytes (commandFrame tool toolId function (bits16 value))))
  have hres : Memory.read u.cmd 3 ++ Memory.read u.cmd 4 = bits16 value := by
    simp [hcmd, commandFrame_value_append]
  refine ⟨_, u, _, rfl, hu, exec_decodeValue u, ?_⟩
  rw [State.setRes_res, hres]
  exact sval16_bits16 (by simp [inS16, hlo, hhi])

/-! ### One byte read -/

/-- R23, R24: a buffer read into `RES`, in range and out of range. -/
theorem readToRes_reads_one_byte (b : Buffer) (a : Nat) (s : State) :
    (a < 8 → ∃ v : Half, v.toNat = (Memory.read (s.buffer b) a).toNat ∧ readToRes b a s = { s with res := v }) ∧
    (8 ≤ a → ∃ v : Half, v.toNat = (Config.freeByte s.draws).toNat ∧
      readToRes b a s = { s with res := v, draws := s.draws + 1 }) := by
  constructor
  · intro h
    exact ⟨_, zext16_toNat _, readToRes_inside b s h⟩
  · intro h
    exact ⟨_, zext16_toNat _, readToRes_outside b s (Nat.not_lt.mpr h)⟩

/-- Settles O19: READ_CMD is the read of `CMD` into `RES`. -/
theorem readCmdReadsOneByte : Obligations.ReadCmdReadsOneByte := by
  intro off s
  simpa only [exec, execReadCmd, State.buffer, Host.Outcome.next.injEq] using readToRes_reads_one_byte .cmd off.toNat s

/-- Settles O21: RESP_READ is the read of `RSP` into `RES`. -/
theorem respReadReadsOneByte : Obligations.RespReadReadsOneByte := by
  intro off s
  simpa only [exec, execRespRead, State.buffer, Host.Outcome.next.injEq] using readToRes_reads_one_byte .rsp off.toNat s

/-! ### The Ping check -/

/-- PING_CHECK reads `RSP[0]`, in range, so it takes no free value (R23, R63). -/
theorem exec_pingCheck (s : State) :
    exec .pingCheck s = .next (s.setRes (if Memory.read s.rsp 0 = s.cfg.pingMarker then 0x0001#16 else 0x0000#16)) := rfl

/-- Settles O22: the two outcomes of the comparison. -/
theorem pingCheckComparesByteZero : Obligations.PingCheckComparesByteZero := by
  intro s
  rw [exec_pingCheck]
  constructor
  · intro h
    rw [if_pos h]
    rfl
  · intro h
    rw [if_neg h]
    rfl

end Sys2Proof.Machine
end

section
/-! SUPPORT. `TIMER_TOP` and the configurations that are refused (R70, R71; O12, O13), and its read (R80; O31). -/

namespace Sys2Proof.Machine

open Sys2Proof.Safety

/-- Rounding keeps the sign of a quotient that is not negative (R3). -/
theorem roundDiv_nonneg {n : Int} (hn : 0 ≤ n) (d : Nat) : 0 ≤ roundDiv n d := by
  rw [roundDiv, if_pos hn, floorDiv]
  exact Int.ediv_nonneg (by omega) (Int.natCast_nonneg _)

/-- R70: the integer `TIMER_TOP` is the rational quotient, rounded. -/
theorem timerTop_eq_roundQ (c : Config) (hprescaler : 0 < c.prescaler) (hfreq : 0 < c.pwmFreqHz) :
    (timerTop c : ℤ) = roundQ ((c.clockHz : ℚ) / ((c.prescaler : ℚ) * (c.pwmFreqHz : ℚ))) := by
  have hround := roundDiv_eq_roundQ (c.clockHz : ℤ) (Nat.mul_pos hprescaler hfreq)
  rw [timerTop, Int.toNat_of_nonneg (roundDiv_nonneg (Int.natCast_nonneg _) _), hround]
  push_cast
  rfl

/-- Settles O12: the rounding of the quotient of natural numbers is not negative, so its natural number is the rounding. -/
theorem timerTopIsTheRoundedQuotient : Obligations.TimerTopIsTheRoundedQuotient :=
  fun c _ hprescaler hfreq => timerTop_eq_roundQ c hprescaler hfreq

/-- R71: what makes a configuration legal. -/
theorem legalConfig_iff (c : Config) : legalConfig c = true ↔
    0 < c.clockHz ∧ 0 < c.prescaler ∧ 0 < c.pwmFreqHz ∧ 1 ≤ timerTop c ∧ timerTop c ≤ 65535 := by
  simp only [legalConfig, Bool.and_eq_true, decide_eq_true_eq, and_assoc]

/-- R71 with the quotient of R70. -/
theorem legalConfig_iff_roundQ (c : Config) : legalConfig c = true ↔
    0 < c.clockHz ∧ 0 < c.prescaler ∧ 0 < c.pwmFreqHz ∧
      1 ≤ roundQ ((c.clockHz : ℚ) / ((c.prescaler : ℚ) * (c.pwmFreqHz : ℚ))) ∧
      roundQ ((c.clockHz : ℚ) / ((c.prescaler : ℚ) * (c.pwmFreqHz : ℚ))) ≤ 65535 := by
  rw [legalConfig_iff]
  refine and_congr_right fun _ => and_congr_right fun hprescaler => and_congr_right fun hfreq => ?_
  rw [← timerTop_eq_roundQ c hprescaler hfreq]
  omega

/-- Settles O13: instantiation and the step both ask for a legal configuration. -/
theorem illegalConfigurationsAreRefused : Obligations.IllegalConfigurationsAreRefused := by
  intro c top
  rw [← legalConfig_iff_roundQ]
  constructor
  · intro hillegal
    refine ⟨if_neg hillegal, ?_⟩
    rintro s rfl
    exact if_neg hillegal
  · intro hlegal
    exact if_pos hlegal

/-- `TIMER_TOP` of a legal configuration fits 16 bits (R16, R71). -/
theorem timerTopHalf_toNat {c : Config} (h : legalConfig c = true) : (timerTopHalf c).toNat = timerTop c := by
  obtain ⟨-, -, -, -, htop⟩ := (legalConfig_iff c).mp h
  rw [timerTopHalf, BitVec.toNat_ofNat]
  omega

/-- Settles O31: READ_TOP writes `RES` alone, with the 16 bits that hold `TIMER_TOP`. -/
theorem readTopReadsTheTimerTop : Obligations.ReadTopReadsTheTimerTop :=
  fun s hlegal => ⟨timerTopHalf s.cfg, timerTopHalf_toNat hlegal, rfl⟩

end Sys2Proof.Machine
end

section
/-! SUPPORT. What READ_DUTY reads (R79; O30). -/

namespace Sys2Proof.Machine

/-- Settles O30: the channel by its number, and the register of each. -/
theorem readDutyReadsTheChannel : Obligations.ReadDutyReadsTheChannel := by
  intro ch s
  refine ⟨dutyOf (channelOf ch) s, rfl, fun h => ?_, fun h => ?_, fun h => ?_, fun h => ?_, fun h => ?_⟩
  · simp [channelOf_eq, h, dutyOf, State.hrCmp]
  · simp [channelOf_eq, h, dutyOf, State.hrCmp]
  · simp [channelOf_eq, h, dutyOf, State.hrCmp]
  · simp [channelOf_eq, h, dutyOf]
  · have habsent : channelOf ch = .absent := by
      rw [channelOf_eq, if_neg (by omega), if_neg (by omega), if_neg (by omega), if_neg (by omega)]
    rw [habsent, dutyOf]

end Sys2Proof.Machine
end

section
/-! SUPPORT. The integers of SET_ANGLE are the exact rationals of R73, R74, R75 and R77, rounded (O26), and the whole effect of
SET_ANGLE (R72; O25). -/

namespace Sys2Proof.Safety

open Sys2Proof.Machine

/-! ### The integers over the rationals -/

/-- An angle of `k` units, in degrees (R44). -/
theorem units_mul_zpow (k : ℤ) : (k : ℚ) * 2 ^ (-149 : ℤ) = k / (unitsPerDegree : ℚ) := by
  rw [unitsPerDegree, zpow_neg, ← div_eq_mul_inv]
  norm_cast

/-- R73: the model's `raw` is the truncated rational. -/
theorem hrRaw_eq_rawQ (k : ℤ) : hrRaw k = rawQ ((k : ℚ) * 2 ^ (-149 : ℤ)) := by
  have hunits : (unitsPerDegree : ℚ) ≠ 0 := by norm_num [unitsPerDegree]
  rw [hrRaw, truncDiv_eq_truncQ _ (by decide), rawQ, units_mul_zpow]
  congr 1
  push_cast
  field_simp

/-- R74: the model's NORMALIZED duty is the rounded rational. -/
theorem normalizedDuty_eq_normalizedDutyQ (top : ℕ) (k : ℤ) :
    normalizedDuty top k = normalizedDutyQ top ((k : ℚ) * 2 ^ (-149 : ℤ)) := by
  rw [normalizedDuty, roundDiv_eq_roundQ _ (by decide), normalizedDutyQ, hrRaw_eq_rawQ]
  push_cast
  rfl

/-- R75: the model's LITERAL result is the rounded rational. -/
theorem literalDuty_eq_literalDutyQ (top : ℕ) (k : ℤ) :
    literalDuty top k = literalDutyQ top ((k : ℚ) * 2 ^ (-149 : ℤ)) := by
  rw [literalDuty, roundDiv_eq_roundQ _ (by decide), literalDutyQ, hrRaw_eq_rawQ, div_mul_eq_mul_div]
  push_cast
  rfl

/-- R77: the model's 8-bit duty is the floor of the rational. -/
theorem duty8_eq_duty8Q (k : ℤ) : duty8 k = duty8Q ((k : ℚ) * 2 ^ (-149 : ℤ)) := by
  rw [duty8, floorDiv_eq_floor, duty8Q, units_mul_zpow, mul_div_assoc', div_div, mul_comm (unitsPerDegree : ℚ)]
  push_cast
  rfl

/-- A quotient above a negative whole number stays above it when truncated (R3). -/
theorem neg_lt_truncDiv {n : ℤ} {d a : ℕ} (hd : 0 < d) (ha : 0 < a) (hn : -(a * d : ℤ) < n) : -(a : ℤ) < truncDiv n d := by
  have hd' : (0 : ℤ) < d := Int.natCast_pos.mpr hd
  rw [truncDiv, floorDiv, floorDiv]
  split
  case isTrue h0 =>
    have hnonneg : 0 ≤ n / (d : ℤ) := Int.ediv_nonneg h0 hd'.le
    omega
  case isFalse =>
    have hlt : -n / (d : ℤ) < a := Int.ediv_lt_of_lt_mul hd' (by omega)
    omega

/-- R73: only the angle 0 gives the lowest `raw`. -/
theorem neg_lt_hrRaw_of_pos {k : ℤ} (h : 0 < k) : -32768 < hrRaw k :=
  neg_lt_truncDiv (a := 32768) (by decide) (by decide) (by push_cast; omega)

/-- Settles O26: the rational by `hrRaw_eq_rawQ`, the range by the invariant's bound. -/
theorem rawIntermediateFitsSixteenBits : Obligations.RawIntermediateFitsSixteenBits := by
  refine ⟨fun k h0 h1 => ?_, by decide⟩
  obtain ⟨hlo, hhi⟩ := hrRaw_mem_Icc h0 h1
  exact ⟨hrRaw_eq_rawQ k, hlo, hhi, neg_lt_hrRaw_of_pos⟩

/-- `hr_duty` of R74 and R75 over the rationals: the duty, and the count of free values. -/
theorem hrDuty_eq_hrDutyQ (k : ℤ) (s : State) : hrDuty k s =
    ((hrDutyQ s ((k : ℚ) * 2 ^ (-149 : ℤ))).1, { s with draws := (hrDutyQ s ((k : ℚ) * 2 ^ (-149 : ℤ))).2 }) := by
  rw [hrDuty, hrDutyQ, normalizedDuty_eq_normalizedDutyQ, literalDuty_eq_literalDutyQ]
  cases s.cfg.hrMap with
  | normalized => rfl
  | literal =>
    dsimp only
    split <;> rfl

/-! ### The effect of SET_ANGLE -/

/-- R72: a pattern SET_ANGLE accepts has a valid angle, its value in units. -/
theorem validAngle_of_acceptsAngle {p : Pattern32} (h : acceptsAngle p) :
    ∃ k : ℤ, validAngle p = some k ∧ finiteValue p = (k : ℚ) * 2 ^ (-149 : ℤ) := by
  obtain ⟨hexp, h0, h1⟩ := h
  obtain ⟨k, hfinite, hvalue⟩ := f32val_finite hexp
  have hunits : (0 : ℚ) < unitsPerDegree := by norm_num [unitsPerDegree]
  rw [← hvalue, units_mul_zpow] at h0 h1
  rw [le_div_iff₀ hunits, zero_mul] at h0
  rw [div_le_iff₀ hunits] at h1
  have hvalid : 0 ≤ k ∧ k ≤ 180 * (unitsPerDegree : ℤ) := ⟨by exact_mod_cast h0, by exact_mod_cast h1⟩
  refine ⟨k, ?_, hvalue.symm⟩
  simp only [validAngle, hfinite]
  exact if_pos hvalid

/-- R72: an angle that is not accepted is ignored. -/
theorem exec_setAngle_of_not_acceptsAngle {p : Pattern32} (h : ¬acceptsAngle p) (ch : Byte) (s : State) :
    exec (.setAngle ch p) s = .next s := by
  have hnone : validAngle p = none :=
    Option.eq_none_iff_forall_ne_some.mpr fun _ hk => h (acceptsAngle_of_validAngle hk)
  simp only [exec, execSetAngle, hnone]

/-- R72: a valid angle is written to the channel named. -/
theorem exec_setAngle_of_validAngle {p : Pattern32} {k : ℤ} (h : validAngle p = some k) (ch : Byte) (s : State) :
    exec (.setAngle ch p) s = .next (setChannel (channelOf ch) k s) := by
  simp only [exec, execSetAngle, h]

/-- R74, R75: the register of a high-resolution channel and the count of free values, over the rationals. -/
theorem setChannel_hr_eq_hrDutyQ (c : HrChannel) (k : ℤ) (s : State) : setChannel (.hr c) k s =
    State.setHrCmp { s with draws := (hrDutyQ s ((k : ℚ) * 2 ^ (-149 : ℤ))).2 } c
      (hrDutyQ s ((k : ℚ) * 2 ^ (-149 : ℤ))).1 := by
  rw [setChannel, hrDuty_eq_hrDutyQ]

/-- Settles O25: an accepted angle is a valid one, and each channel gets the duty computed over the rationals. -/
theorem setAngleWritesTheRuledDuty : Obligations.SetAngleWritesTheRuledDuty := by
  intro ch p s a
  by_cases haccepts : acceptsAngle p
  · obtain ⟨k, hvalid, hvalue⟩ := validAngle_of_acceptsAngle haccepts
    have ha : a = (k : ℚ) * 2 ^ (-149 : ℤ) := hvalue
    rw [exec_setAngle_of_validAngle hvalid, if_pos haccepts, channelOf_eq, ha, ← duty8_eq_duty8Q]
    congr 1
    split_ifs
    · exact setChannel_hr_eq_hrDutyQ .ch0 k s
    · exact setChannel_hr_eq_hrDutyQ .ch1 k s
    · exact setChannel_hr_eq_hrDutyQ .ch2 k s
    · rfl
    · rfl
  · rw [exec_setAngle_of_not_acceptsAngle haccepts, if_neg haccepts]

end Sys2Proof.Safety
end

section
/-! SUPPORT. The NORMALIZED mapping: its bounds, its ends, its order (R76; O27), and the worked angles (R74, R77; O28). -/

namespace Sys2Proof.Safety

open Sys2Proof.Machine

/-- `trunc(n / d)` is the library's division toward zero (R3). -/
theorem truncDiv_eq_tdiv (n : ℤ) (d : ℕ) : truncDiv n d = n.tdiv d := by
  rw [truncDiv, floorDiv, floorDiv]
  split
  case isTrue h => exact (Int.tdiv_eq_ediv_of_nonneg h).symm
  case isFalse h =>
    have hneg : 0 ≤ -n := by omega
    rw [← Int.tdiv_eq_ediv_of_nonneg hneg, Int.neg_tdiv, neg_neg]

/-- Rounding keeps the order of quotients that are not negative (R3). -/
theorem roundDiv_mono_of_nonneg {n n' : ℤ} {d : ℕ} (hd : 0 < d) (h0 : 0 ≤ n) (h : n ≤ n') :
    roundDiv n d ≤ roundDiv n' d := by
  rw [roundDiv, roundDiv, if_pos h0, if_pos (h0.trans h), floorDiv, floorDiv]
  exact Int.ediv_le_ediv (by omega) (by omega)

/-- Rounding leaves a whole quotient as it is (R3). -/
theorem roundDiv_mul_self {m : ℤ} {d : ℕ} (hd : 0 < d) (hm : 0 ≤ m) : roundDiv (m * d) d = m := by
  have hd' : (0 : ℤ) < d := Int.natCast_pos.mpr hd
  have hsum : 2 * (m * d) + (d : ℤ) = d + m * ((2 * d : ℕ) : ℤ) := by
    push_cast
    ring
  rw [roundDiv, if_pos (mul_nonneg hm hd'.le), floorDiv, hsum, Int.add_mul_ediv_right _ _ (by omega),
    Int.ediv_eq_zero_of_lt hd'.le (by omega), zero_add]

/-- R73: `raw` does not decrease with the angle. -/
theorem hrRaw_mono {k k' : ℤ} (h : k ≤ k') : hrRaw k ≤ hrRaw k' := by
  rw [hrRaw, hrRaw, truncDiv_eq_tdiv, truncDiv_eq_tdiv]
  exact Int.tdiv_le_tdiv (by decide) (by omega)

section
variable (top : ℕ)

/-- R76: the duty lies in `0 .. TIMER_TOP`. -/
theorem normalizedDuty_mem_Icc {k : ℤ} (h0 : 0 ≤ k) (h1 : k ≤ 180 * (unitsPerDegree : ℤ)) :
    normalizedDuty top k ∈ Set.Icc 0 (top : ℤ) := by
  obtain ⟨hlo, hhi⟩ := hrRaw_mem_Icc h0 h1
  exact roundDiv_scaled_bounds top (by omega) (by omega)

/-- R76: at 0 degrees `raw` is -32768, and the duty 0. -/
theorem normalizedDuty_zero : normalizedDuty top 0 = 0 := by
  have hraw : hrRaw 0 + 32768 = 0 := by decide
  rw [normalizedDuty, hraw, mul_zero]
  rfl

/-- R76: at 180 degrees `raw` is 32767, and the duty `TIMER_TOP`. -/
theorem normalizedDuty_180 : normalizedDuty top (180 * (unitsPerDegree : ℤ)) = top := by
  have hraw : hrRaw (180 * (unitsPerDegree : ℤ)) + 32768 = (65535 : ℕ) := by decide
  rw [normalizedDuty, hraw]
  exact roundDiv_mul_self (by decide) (Int.natCast_nonneg top)

/-- R76: the duty does not decrease with the angle. -/
theorem normalizedDuty_mono {k k' : ℤ} (h0 : 0 ≤ k) (h : k ≤ k') (h1 : k' ≤ 180 * (unitsPerDegree : ℤ)) :
    normalizedDuty top k ≤ normalizedDuty top k' := by
  have hlo := (hrRaw_mem_Icc h0 (h.trans h1)).1
  have hraw := hrRaw_mono h
  have htop : (0 : ℤ) ≤ top := Int.natCast_nonneg top
  exact roundDiv_mono_of_nonneg (by decide) (mul_nonneg htop (by omega)) (mul_le_mul_of_nonneg_left (by omega) htop)

end

/-- R76: with `TIMER_TOP` 65535 the duty is `u = raw + 32768`. -/
theorem normalizedDuty_65535 {k : ℤ} (h0 : 0 ≤ k) (h1 : k ≤ 180 * (unitsPerDegree : ℤ)) :
    normalizedDuty 65535 k = hrRaw k + 32768 := by
  have hlo := (hrRaw_mem_Icc h0 h1).1
  rw [normalizedDuty, mul_comm]
  exact roundDiv_mul_self (by decide) (by omega)

/-- `bits_16` keeps a number that fits 16 bits (R2). -/
theorem bits16_toNat_of_fits {x : ℤ} (h0 : 0 ≤ x) (h1 : x ≤ 65535) : ((bits16 x).toNat : ℤ) = x := by
  rw [toNat_bits16]
  omega

/-- Settles O27: the properties one by one; a tie would make an even number odd. -/
theorem normalizedDutyIsBoundedAndMonotone : Obligations.NormalizedDutyIsBoundedAndMonotone := by
  intro c hlegal
  obtain ⟨-, -, -, -, htop⟩ := (legalConfig_iff c).mp hlegal
  refine ⟨fun k h0 h1 => ?_, normalizedDuty_zero _, normalizedDuty_180 _, fun k k' => normalizedDuty_mono _,
    fun hmax k h0 h1 => ?_, fun u j => ?_⟩
  · obtain ⟨hlo, hhi⟩ := normalizedDuty_mem_Icc (timerTop c) h0 h1
    exact ⟨hlo, hhi, bits16_toNat_of_fits hlo (by omega)⟩
  · rw [hmax]
    exact normalizedDuty_65535 h0 h1
  · omega

/-! ### SET_ANGLE on one channel -/

/-- SET_ANGLE on a high-resolution channel under NORMALIZED (R74). -/
theorem setChannel_hr_normalized (c : HrChannel) (k : ℤ) {s : State} (h : s.cfg.hrMap = .normalized) :
    setChannel (.hr c) k s = s.setHrCmp c (bits16 (normalizedDuty (timerTop s.cfg) k)) := by
  rw [setChannel, hrDuty_normalized k h]

/-- SET_ANGLE on a high-resolution channel under LITERAL, where the result does not fit (R75). -/
theorem setChannel_hr_literal_outside (c : HrChannel) {k : ℤ} {s : State} (h : s.cfg.hrMap = .literal)
    (hd : ¬(0 ≤ literalDuty (timerTop s.cfg) k ∧ literalDuty (timerTop s.cfg) k ≤ 65535)) :
    setChannel (.hr c) k s = s.nextDraw.setHrCmp c (Config.freeHalf s.draws) := by
  rw [setChannel, hrDuty_literal_outside h hd]

/-- The patterns of 0, 90 and 180 degrees (R44). -/
theorem validAngle_worked : validAngle 0x00000000#32 = some 0 ∧
    validAngle 0x42B40000#32 = some (90 * (unitsPerDegree : ℤ)) ∧
    validAngle 0x43340000#32 = some (180 * (unitsPerDegree : ℤ)) := by decide

/-- Settles O28: the three angles in units, and the duties they map to. -/
theorem workedAnglesGiveTheirDuties : Obligations.WorkedAnglesGiveTheirDuties := by
  intro s
  obtain ⟨hzero, hninety, hhalfTurn⟩ := validAngle_worked
  refine ⟨fun _ hnormalized => ⟨?_, ?_, fun htop => ?_⟩, ?_, ?_, ?_⟩
  · have hchannel := setChannel_hr_normalized .ch0 0 hnormalized
    rw [normalizedDuty_zero] at hchannel
    exact (exec_setAngle_of_validAngle hzero 0#8 s).trans (congrArg _ hchannel)
  · have hchannel := setChannel_hr_normalized .ch1 (180 * (unitsPerDegree : ℤ)) hnormalized
    rw [normalizedDuty_180, bits16, BitVec.ofInt_natCast] at hchannel
    exact (exec_setAngle_of_validAngle hhalfTurn 1#8 s).trans (congrArg _ hchannel)
  · have hchannel := setChannel_hr_normalized .ch2 (90 * (unitsPerDegree : ℤ)) hnormalized
    have hduty : bits16 (normalizedDuty 20000 (90 * (unitsPerDegree : ℤ))) = 10000#16 := by decide
    rw [htop, hduty] at hchannel
    exact (exec_setAngle_of_validAngle hninety 2#8 s).trans (congrArg _ hchannel)
  · exact exec_setAngle_of_validAngle hzero 3#8 s
  · exact exec_setAngle_of_validAngle hninety 3#8 s
  · exact exec_setAngle_of_validAngle hhalfTurn 3#8 s

end Sys2Proof.Safety
end

section
/-! SUPPORT. Where the LITERAL result fits 16 bits (R75; O29). -/

namespace Sys2Proof.Safety

open Sys2Proof.Machine

/-- R75: with `TIMER_TOP` 20000 the result fits exactly for `raw` in `0 .. 835`; it is -78 at -1 and 65569 at 836. -/
theorem literalDuty_20000_fits_iff (k : ℤ) :
    (0 ≤ literalDuty 20000 k ∧ literalDuty 20000 k ≤ 65535) ↔ (0 ≤ hrRaw k ∧ hrRaw k ≤ 835) := by
  rw [literalDuty, roundDiv, floorDiv, floorDiv]
  split <;> omega

/-- Settles O29: elsewhere the result does not fit, and each channel takes the next free value. -/
theorem literalMappingFitsOnlyNearNinetyDegrees : Obligations.LiteralMappingFitsOnlyNearNinetyDegrees := by
  refine ⟨fun k _ _ => literalDuty_20000_fits_iff k, fun s p k hliteral htop hvalid hraw => ?_⟩
  have houtside : ¬(0 ≤ literalDuty (timerTop s.cfg) k ∧ literalDuty (timerTop s.cfg) k ≤ 65535) := by
    rw [htop, literalDuty_20000_fits_iff]
    omega
  have hexec (ch : Byte) {c : HrChannel} (hch : channelOf ch = .hr c) :
      exec (.setAngle ch p) s = .next (s.nextDraw.setHrCmp c (Config.freeHalf s.draws)) := by
    rw [exec_setAngle_of_validAngle hvalid, hch, setChannel_hr_literal_outside c hliteral houtside]
  exact ⟨hexec 0#8 rfl, hexec 1#8 rfl, hexec 2#8 rfl⟩

end Sys2Proof.Safety
end

section
/-! SUPPORT. The command that leaves every state as it is (R90; O32). -/

namespace Sys2Proof.Machine

/-- Settles O32: the arm of NOP answers the state it is given, whatever it holds. -/
theorem nopChangesNothing : Obligations.NopChangesNothing := fun _ => rfl

end Sys2Proof.Machine
end

section
/-! SUPPORT. A command word or a step that answers no next state is one of the two refusals (R49, R71, R109; O15). -/

namespace Sys2Proof.Machine

/-- Under an illegal configuration the step is refused (R71). -/
theorem step_of_not_legalConfig {s : State} (hl : ¬legalConfig s.cfg = true) : step s = .refused .illegalConfiguration :=
  if_neg hl

/-- Where the host gives no input the step changes nothing (log entry 2). -/
theorem step_of_pending_nil {s : State} (hl : legalConfig s.cfg = true) (hp : s.pending = []) : step s = .next s := by
  simp only [step, runIfLegal, hl, if_true, runNextInput, hp]

/-- A word is a command, which completes, or its opcode is reserved (R49, R109). -/
theorem runWord_completes_or_reserved (w : CommandWord) (s : State) :
    (∃ t, runWord w s = .next t) ∨ runWord w s = .refused (.reservedOpcode (fieldOp w)) := by
  obtain ⟨i, hd, -, -⟩ | ⟨hd, -⟩ := decode_cases w
  · rw [runWord_of_command hd]
    exact .inl (exec_completes i s)
  · exact .inr (runWord_of_reservedOpcode hd s)

/-- Settles O15: an illegal configuration is refused; under a legal one the step is the host's next input, where only a reserved
opcode is refused. -/
theorem everyCommandCompletes : Obligations.EveryCommandCompletes := by
  refine ⟨exec_completes, fun s => ?_⟩
  by_cases hl : legalConfig s.cfg = true
  · cases hp : s.pending with
    | nil => exact .inl ⟨s, step_of_pending_nil hl hp⟩
    | cons input rest =>
      rw [step_of_pending_cons hl hp]
      cases input with
      | reset => exact .inl ⟨_, rfl⟩
      | command w =>
        obtain hnext | hreserved := runWord_completes_or_reserved w (s.setPending rest)
        · exact .inl hnext
        · exact .inr (.inl ⟨_, hreserved⟩)
  · exact .inr (.inr (step_of_not_legalConfig hl))

end Sys2Proof.Machine
end

section
/-! SUPPORT. Reset through a step (R120, R121; O10), and the reset state as that of angle 0 (R123; O11). -/

namespace Sys2Proof.Safety

open Sys2Proof.Machine

/-- Settles O10: the reset is carried out on the rest of the host's stream, and keeps that stream and the count of free values. -/
theorem appliedResetKeepsTheConfiguration : Obligations.AppliedResetKeepsTheConfiguration := by
  intro s rest hl hp
  calc step s = runInput .reset (s.setPending rest) := step_of_pending_cons hl hp
    _ = .next (s.setPending rest).applyReset := rfl

/-- R75: at 0 degrees `raw` is -32768, and the result is negative for every positive `TIMER_TOP`. -/
theorem literalDuty_zero_neg {top : ℕ} (h : 1 ≤ top) : literalDuty top 0 < 0 := by
  have hraw : hrRaw 0 = -32768 := by decide
  have hneg : ¬0 ≤ (top : ℤ) * -32768 := by omega
  rw [literalDuty, hraw, roundDiv, if_neg hneg, floorDiv]
  omega

/-- R77, R123: angle 0 leaves the 8-bit channel as reset does, under both mappings. -/
theorem setChannel_eightBit_zero_resetWith (c : Config) :
    setChannel .eightBit 0 (State.resetWith c) = State.resetWith c := by
  have hduty : BitVec.ofInt 8 (duty8 0) = 0x00#8 := by decide
  rw [setChannel, hduty]
  rfl

/-- R123 under NORMALIZED: angle 0 leaves every channel as reset does. -/
theorem setChannel_zero_resetWith_normalized {c : Config} (h : c.hrMap = .normalized) (channel : Channel) :
    setChannel channel 0 (State.resetWith c) = State.resetWith c := by
  cases channel with
  | hr index =>
    have hmap : (State.resetWith c).cfg.hrMap = .normalized := h
    rw [setChannel_hr_normalized index 0 hmap, normalizedDuty_zero]
    cases index <;> rfl
  | eightBit => exact setChannel_eightBit_zero_resetWith c
  | absent => rfl

/-- R123 under LITERAL: angle 0 gives a high-resolution channel the next free value. -/
theorem setChannel_hr_zero_resetWith_literal {c : Config} (hlegal : legalConfig c = true) (h : c.hrMap = .literal)
    (channel : HrChannel) : setChannel (.hr channel) 0 (State.resetWith c) =
      (State.resetWith c).nextDraw.setHrCmp channel (Config.freeHalf (State.resetWith c).draws) := by
  obtain ⟨-, -, -, htop, -⟩ := (legalConfig_iff c).mp hlegal
  exact setChannel_hr_literal_outside channel h fun hfits => (literalDuty_zero_neg htop).not_ge hfits.1

/-- Settles O11: `+0.0` is the valid angle 0, so SET_ANGLE is `setChannel` at 0 on the channel named. -/
theorem resetStateIsThatOfAngleZero : Obligations.ResetStateIsThatOfAngleZero := by
  intro c hlegal
  have hexec (ch : Byte) := exec_setAngle_of_validAngle validAngle_worked.1 ch (State.resetWith c)
  obtain ⟨-, hframes, -⟩ := resetLeavesEveryRegisterZero c
  refine ⟨fun a ha => (hframes a ha).1, by decide, fun hnormalized ch => ?_, fun hliteral => ?_⟩
  · rw [hexec, setChannel_zero_resetWith_normalized hnormalized]
  · have hdraw (channel : HrChannel) := setChannel_hr_zero_resetWith_literal hlegal hliteral channel
    exact ⟨(hexec 3#8).trans (congrArg _ (setChannel_eightBit_zero_resetWith c)), (hexec 0#8).trans (congrArg _ (hdraw .ch0)),
      (hexec 1#8).trans (congrArg _ (hdraw .ch1)), (hexec 2#8).trans (congrArg _ (hdraw .ch2))⟩

end Sys2Proof.Safety
end

section
/-! SUPPORT. Command words written out in 95_test_vectors.md (R42, R47, R48, R49; O5). -/

namespace Sys2Proof

/-- Settles O5: five words have the command's opcode and operands, and the sixth has an opcode in neither range of R47. -/
theorem writtenOutWordsDecode : Obligations.WrittenOutWordsDecode := by
  have hreserved (i : Instr) : opcodeOf i ≠ fieldOp 0x1300000000000000#64 := by
    intro h
    have hranges := opcodeOf_ranges i
    rw [h] at hranges
    exact absurd hranges (by decide)
  refine ⟨?nop, ?encode, ?readCmd, ?respWrite, ?setAngle, decode_of_forall_opcodeOf_ne hreserved⟩
  all_goals
    refine decode_eq_command_iff.mpr ?_
    decide

end Sys2Proof
end
